-- ==== Sys2Proof/Word.lean ====
section
/-! DEFINITION. The widths the spec names: 8-bit register cells, 16-bit words, register numbers. -/

namespace Sys2Proof

/-- An 8-bit unsigned cell: a general register, a timer, a memory byte, an immediate kk
(10_state.md R20, R26, R29; 00_scope.md R9). -/
abbrev Byte := BitVec 8

/-- A 16-bit unsigned value: pc, I, the opcode register, a stack slot (10_state.md R22, R23, R27, R28). -/
abbrev Word := BitVec 16

/-- A 12-bit immediate address nnn, and the addresses 0 to 0xFFF of memory (30_encoding.md R92, 20_memory.md R60). -/
abbrev Addr := BitVec 12

/-- A 4-bit field used as a number 0 to 15: a register index x or y, a sprite height n, a key
(30_encoding.md R91, R93). -/
abbrev Nibble := Fin 16

end Sys2Proof
end

