-- ==== Sys2Proof/Config.lean ====
section
/-! DEFINITION. What an implementation fixes (the open parameters of 00_scope.md R4) and the one free
value, the random byte of a STEP whose byte nobody has named. -/

namespace Sys2Proof

/-- The two values of OOB_POLICY and of STACK_POLICY (00_scope.md R4; 92_eei_decisions.md D2, D3). -/
inductive Policy where
  | fault
  | wrap
deriving DecidableEq, Repr

/-- The open parameters of 00_scope.md R4. They are configuration: State carries them, no command writes
them. DESIGN CHOICE (log 1), safe: a claim about every State is a claim about every parameter value. -/
structure Params where
  /-- START_ADDRESS, the reset value of pc. -/
  startAddress : Word
  /-- FONT_BASE, the address of the first font byte. -/
  fontBase : Word
  /-- FONT_DATA, 80 bytes: 16 glyphs of 5 bytes, top row first. -/
  fontData : List Byte
  /-- OOB_POLICY: an address above 0xFFF, or a key index above 15. -/
  oobPolicy : Policy
  /-- STACK_POLICY: a call with 16 frames, a return with none. -/
  stackPolicy : Policy
deriving DecidableEq, Repr

/-- The byte that comes with the `n`-th STEP that no schedule names (45_random.md R190: "a free input";
93_implementation_defined.md U4: "any value"). It has no body, so nothing can be proved of its value (log 7). -/
opaque Config.hostByte : Nat → Byte

end Sys2Proof
end

