-- ==== Sys2Proof/Syntax.lean ====
section
/-! DEFINITION. The instructions, one constructor per row of spec/opcode_table.json (30_encoding.md R100),
in the row order of R100, and the shape of a row of that table. Only the fields an instruction uses are
kept; the bits it ignores (R102) are not part of it. -/

namespace Sys2Proof

/-- The 34 instructions and the no-op. `x` and `y` are register numbers, `kk` an immediate byte, `nnn` an
immediate address, `n` a sprite height (30_encoding.md R91 to R93). -/
inductive Instr where
  /-- CLS, 0??0 (R140) -/
  | cls
  /-- RET, 0??E (R141) -/
  | ret
  /-- JP nnn, 1nnn (R142) -/
  | jp (nnn : Addr)
  /-- CALL nnn, 2nnn (R143) -/
  | call (nnn : Addr)
  /-- JP V0, nnn, Bnnn (R144) -/
  | jpV0 (nnn : Addr)
  /-- SE Vx, kk, 3xkk (R150) -/
  | seImm (x : Nibble) (kk : Byte)
  /-- SNE Vx, kk, 4xkk (R151) -/
  | sneImm (x : Nibble) (kk : Byte)
  /-- SE Vx, Vy, 5xy? (R152) -/
  | seReg (x y : Nibble)
  /-- SNE Vx, Vy, 9xy? (R153) -/
  | sneReg (x y : Nibble)
  /-- LD Vx, kk, 6xkk (R160) -/
  | ldImm (x : Nibble) (kk : Byte)
  /-- ADD Vx, kk, 7xkk (R161) -/
  | addImm (x : Nibble) (kk : Byte)
  /-- LD Vx, Vy, 8xy0 (R162) -/
  | ldReg (x y : Nibble)
  /-- OR Vx, Vy, 8xy1 (R163) -/
  | orReg (x y : Nibble)
  /-- AND Vx, Vy, 8xy2 (R164) -/
  | andReg (x y : Nibble)
  /-- XOR Vx, Vy, 8xy3 (R165) -/
  | xorReg (x y : Nibble)
  /-- ADD Vx, Vy, 8xy4 (R166) -/
  | addReg (x y : Nibble)
  /-- SUB Vx, Vy, 8xy5 (R167) -/
  | subReg (x y : Nibble)
  /-- SHR Vx, 8xy6, y ignored (R168) -/
  | shr (x : Nibble)
  /-- SUBN Vx, Vy, 8xy7 (R169) -/
  | subnReg (x y : Nibble)
  /-- SHL Vx, 8xyE, y ignored (R170) -/
  | shl (x : Nibble)
  /-- LD I, nnn, Annn (R180) -/
  | ldI (nnn : Addr)
  /-- ADD I, Vx, Fx1E (R181) -/
  | addI (x : Nibble)
  /-- LD F, Vx, Fx29 (R182) -/
  | ldF (x : Nibble)
  /-- LD [I], Vx, Fx55: store V[0] to V[x] (R183) -/
  | storeRegs (x : Nibble)
  /-- LD Vx, [I], Fx65: load V[0] to V[x] (R184) -/
  | loadRegs (x : Nibble)
  /-- LD B, Vx, Fx33 (R185) -/
  | ldB (x : Nibble)
  /-- RND Vx, kk, Cxkk (R190) -/
  | rnd (x : Nibble) (kk : Byte)
  /-- SKP Vx, Ex?E (R195) -/
  | skp (x : Nibble)
  /-- SKNP Vx, Ex?1 (R196) -/
  | sknp (x : Nibble)
  /-- LD Vx, K, Fx0A (R197) -/
  | ldKey (x : Nibble)
  /-- LD Vx, DT, Fx07 (R205) -/
  | getDT (x : Nibble)
  /-- LD DT, Vx, Fx15 (R206) -/
  | setDT (x : Nibble)
  /-- LD ST, Vx, Fx18 (R207) -/
  | setST (x : Nibble)
  /-- DRW Vx, Vy, n, Dxyn (R210) -/
  | drw (x y n : Nibble)
  /-- NOP, every value no other row matches (R124) -/
  | nop
deriving DecidableEq, Repr

/-- The number of the instruction's row in the table of 30_encoding.md R100 (its column "#"). -/
def Instr.rowNumber : Instr → Nat
  | .cls => 1
  | .ret => 2
  | .jp _ => 3
  | .call _ => 4
  | .jpV0 _ => 5
  | .seImm _ _ => 6
  | .sneImm _ _ => 7
  | .seReg _ _ => 8
  | .sneReg _ _ => 9
  | .ldImm _ _ => 10
  | .addImm _ _ => 11
  | .ldReg _ _ => 12
  | .orReg _ _ => 13
  | .andReg _ _ => 14
  | .xorReg _ _ => 15
  | .addReg _ _ => 16
  | .subReg _ _ => 17
  | .shr _ => 18
  | .subnReg _ _ => 19
  | .shl _ => 20
  | .ldI _ => 21
  | .addI _ => 22
  | .ldF _ => 23
  | .storeRegs _ => 24
  | .loadRegs _ => 25
  | .ldB _ => 26
  | .rnd _ _ => 27
  | .skp _ => 28
  | .sknp _ => 29
  | .ldKey _ => 30
  | .getDT _ => 31
  | .setDT _ => 32
  | .setST _ => 33
  | .drw _ _ _ => 34
  | .nop => 35

/-- A row of the opcode map: the word `w` selects it iff `w AND mask = pattern` (30_encoding.md R100). -/
structure OpcodeRow where
  number : Nat
  mask : Word
  pattern : Word
deriving DecidableEq, Repr

/-- Whether the word selects the row. -/
def OpcodeRow.matchesWord (row : OpcodeRow) (w : Word) : Bool := w &&& row.mask == row.pattern

/-- Why bytes hold no instruction: the only way is that there are fewer than two of them, since every
16-bit value is an instruction (30_encoding.md R90, R101). -/
inductive DecodeError where
  | truncated
deriving DecidableEq, Repr

end Sys2Proof
end

