-- ==== Sys2Proof/WellFormed.lean ====
section
/-! DEFINITION. The checks on terms. An instruction has none that its types do not already make: every
value of every operand field is legal (30_encoding.md R93, R101), so a number out of range cannot be
written. What can be ill-formed is the configuration (00_scope.md R5). -/

namespace Sys2Proof

/-- Every instruction is well-formed: "all 16 values are legal" for a register field (30_encoding.md R93),
every immediate is (R92), and no encoding is illegal (R101). One arm a constructor, so that a new
instruction has to be thought about. -/
def Instr.wellFormed : Instr → Bool
  | .cls | .ret | .nop => true
  | .jp _ | .call _ | .jpV0 _ | .ldI _ => true
  | .seImm _ _ | .sneImm _ _ | .ldImm _ _ | .addImm _ _ | .rnd _ _ => true
  | .seReg _ _ | .sneReg _ _ => true
  | .ldReg _ _ | .orReg _ _ | .andReg _ _ | .xorReg _ _ => true
  | .addReg _ _ | .subReg _ _ | .subnReg _ _ => true
  | .shr _ | .shl _ => true
  | .addI _ | .ldF _ | .storeRegs _ | .loadRegs _ | .ldB _ => true
  | .skp _ | .sknp _ | .ldKey _ => true
  | .getDT _ | .setDT _ | .setST _ => true
  | .drw _ _ _ => true

/-- "FONT_DATA is exactly 80 bytes" (00_scope.md R5). -/
def Params.fontSizeOk (p : Params) : Bool := p.fontData.length == 80

/-- "FONT_BASE + 80 <= START_ADDRESS" (00_scope.md R5). -/
def Params.fontBelowStart (p : Params) : Bool := decide (p.fontBase.toNat + 80 ≤ p.startAddress.toNat)

/-- "START_ADDRESS <= 0xFFE" (00_scope.md R5). -/
def Params.startInMemory (p : Params) : Bool := decide (p.startAddress.toNat ≤ 0xFFE)

/-- The constraints of 00_scope.md R5 on the open parameters. -/
def Params.wellFormed (p : Params) : Bool := p.fontSizeOk && p.fontBelowStart && p.startInMemory

end Sys2Proof
end

