-- ==== Sys2Proof/Decode.lean ====
section
/-! DEFINITION. The two-level decode of 30_encoding.md R94 to R99 (total: every word is an instruction),
the opcode map of R100 as data, the byte-order helpers, and the encoder. -/

namespace Sys2Proof

/-! Fields (30_encoding.md R91). -/

/-- `t`, bits 15:12, the primary dispatch index. -/
def tField (w : Word) : Nibble := Fin.ofNat 16 (w.toNat >>> 12)

/-- `x`, bits 11:8. -/
def xField (w : Word) : Nibble := Fin.ofNat 16 (w.toNat >>> 8)

/-- `y`, bits 7:4. -/
def yField (w : Word) : Nibble := Fin.ofNat 16 (w.toNat >>> 4)

/-- `n`, bits 3:0. -/
def nField (w : Word) : Nibble := Fin.ofNat 16 w.toNat

/-- `kk = opcode AND 0x00FF` (R92; 90_conflicts.md C1). -/
def kkField (w : Word) : Byte := w.setWidth 8

/-- `nnn = opcode AND 0x0FFF` (R92). -/
def nnnField (w : Word) : Addr := w.setWidth 12

/-! Byte order: instructions are stored high byte first (20_memory.md R63). -/

/-- "combine them big-endian (first byte is the high byte)". -/
def wordOfBytes (hi lo : Byte) : Word := BitVec.ofNat 16 (hi.toNat * 256 + lo.toNat)

/-- The byte at the lower address. -/
def highByte (w : Word) : Byte := BitVec.ofNat 8 (w.toNat >>> 8)

/-- The byte at the higher address. -/
def lowByte (w : Word) : Byte := w.setWidth 8

/-! The decode. -/

/-- Secondary dispatch of family 0 on the lowest nibble; bits 11:4 are not examined (R95). -/
def decodeFamily0 (w : Word) : Instr :=
  match (nField w).val with
  | 0x0 => .cls
  | 0xE => .ret
  | _ => .nop

/-- Secondary dispatch of family 8 on the lowest nibble (R96). -/
def decodeFamily8 (w : Word) : Instr :=
  match (nField w).val with
  | 0x0 => .ldReg (xField w) (yField w)
  | 0x1 => .orReg (xField w) (yField w)
  | 0x2 => .andReg (xField w) (yField w)
  | 0x3 => .xorReg (xField w) (yField w)
  | 0x4 => .addReg (xField w) (yField w)
  | 0x5 => .subReg (xField w) (yField w)
  | 0x6 => .shr (xField w)
  | 0x7 => .subnReg (xField w) (yField w)
  | 0xE => .shl (xField w)
  | _ => .nop

/-- Secondary dispatch of family E on the lowest nibble; bits 7:4 are not examined (R97). -/
def decodeFamilyE (w : Word) : Instr :=
  match (nField w).val with
  | 0x1 => .sknp (xField w)
  | 0xE => .skp (xField w)
  | _ => .nop

/-- Secondary dispatch of family F on the lowest byte (R98; 90_conflicts.md C5). -/
def decodeFamilyF (w : Word) : Instr :=
  match (kkField w).toNat with
  | 0x07 => .getDT (xField w)
  | 0x0A => .ldKey (xField w)
  | 0x15 => .setDT (xField w)
  | 0x18 => .setST (xField w)
  | 0x1E => .addI (xField w)
  | 0x29 => .ldF (xField w)
  | 0x33 => .ldB (xField w)
  | 0x55 => .storeRegs (xField w)
  | 0x65 => .loadRegs (xField w)
  | _ => .nop

/-- Primary dispatch on the top nibble (R94). The last slot, reached by `t = 0xF` alone, is family F. -/
def decodeWord (w : Word) : Instr :=
  match (tField w).val with
  | 0x0 => decodeFamily0 w
  | 0x1 => .jp (nnnField w)
  | 0x2 => .call (nnnField w)
  | 0x3 => .seImm (xField w) (kkField w)
  | 0x4 => .sneImm (xField w) (kkField w)
  | 0x5 => .seReg (xField w) (yField w)
  | 0x6 => .ldImm (xField w) (kkField w)
  | 0x7 => .addImm (xField w) (kkField w)
  | 0x8 => decodeFamily8 w
  | 0x9 => .sneReg (xField w) (yField w)
  | 0xA => .ldI (nnnField w)
  | 0xB => .jpV0 (nnnField w)
  | 0xC => .rnd (xField w) (kkField w)
  | 0xD => .drw (xField w) (yField w) (nField w)
  | 0xE => decodeFamilyE w
  | _ => decodeFamilyF w

/-- Decode the first instruction of a byte stream and return the bytes after it. Refused by name only
where fewer than two bytes are left (R90: every instruction is two bytes). -/
def decode : List Byte → Except DecodeError (Instr × List Byte)
  | hi :: lo :: rest => .ok (decodeWord (wordOfBytes hi lo), rest)
  | [_] => .error .truncated
  | [] => .error .truncated

/-- The opcode map of R100, rows 1 to 34 in its order; a word that no row matches is row 35, NOP. -/
def opcodeMap : List OpcodeRow :=
  [⟨1, 0xF00F, 0x0000⟩, ⟨2, 0xF00F, 0x000E⟩, ⟨3, 0xF000, 0x1000⟩, ⟨4, 0xF000, 0x2000⟩,
   ⟨5, 0xF000, 0xB000⟩, ⟨6, 0xF000, 0x3000⟩, ⟨7, 0xF000, 0x4000⟩, ⟨8, 0xF000, 0x5000⟩,
   ⟨9, 0xF000, 0x9000⟩, ⟨10, 0xF000, 0x6000⟩, ⟨11, 0xF000, 0x7000⟩] ++
  [⟨12, 0xF00F, 0x8000⟩, ⟨13, 0xF00F, 0x8001⟩, ⟨14, 0xF00F, 0x8002⟩, ⟨15, 0xF00F, 0x8003⟩,
   ⟨16, 0xF00F, 0x8004⟩, ⟨17, 0xF00F, 0x8005⟩, ⟨18, 0xF00F, 0x8006⟩, ⟨19, 0xF00F, 0x8007⟩,
   ⟨20, 0xF00F, 0x800E⟩, ⟨21, 0xF000, 0xA000⟩, ⟨22, 0xF0FF, 0xF01E⟩, ⟨23, 0xF0FF, 0xF029⟩] ++
  [⟨24, 0xF0FF, 0xF055⟩, ⟨25, 0xF0FF, 0xF065⟩, ⟨26, 0xF0FF, 0xF033⟩, ⟨27, 0xF000, 0xC000⟩,
   ⟨28, 0xF00F, 0xE00E⟩, ⟨29, 0xF00F, 0xE001⟩, ⟨30, 0xF0FF, 0xF00A⟩, ⟨31, 0xF0FF, 0xF007⟩,
   ⟨32, 0xF0FF, 0xF015⟩, ⟨33, 0xF0FF, 0xF018⟩, ⟨34, 0xF000, 0xD000⟩]

/-! The encoder, from the patterns of R100. -/

/-- Format NNN: the family nibble above a 12-bit address (30_encoding.md section 1). -/
def encodeNNN (t : Nat) (nnn : Addr) : Word := BitVec.ofNat 16 (t * 4096 + nnn.toNat)

/-- Format XKK. -/
def encodeXKK (t : Nat) (x : Nibble) (kk : Byte) : Word :=
  BitVec.ofNat 16 (t * 4096 + x.val * 256 + kk.toNat)

/-- Formats XY, XYS, XYN: two register fields and the lowest nibble. -/
def encodeXYN (t : Nat) (x y : Nibble) (n : Nat) : Word :=
  BitVec.ofNat 16 (t * 4096 + x.val * 256 + y.val * 16 + n)

/-- Formats XS, XSS: one register field and the lowest byte. -/
def encodeXS (t : Nat) (x : Nibble) (low : Nat) : Word :=
  BitVec.ofNat 16 (t * 4096 + x.val * 256 + low)

/-- The word of an instruction. Ignored nibbles get the conventional value of R104 (00E0, 00EE, 5xy0, 9xy0,
Ex9E, ExA1), or 0 for the y of SHR and SHL; NOP gets 0x0001, one of its 12912 words. DESIGN CHOICE (log 15), safe. -/
def encode : Instr → Word
  | .cls => 0x00E0
  | .ret => 0x00EE
  | .jp nnn => encodeNNN 0x1 nnn
  | .call nnn => encodeNNN 0x2 nnn
  | .jpV0 nnn => encodeNNN 0xB nnn
  | .seImm x kk => encodeXKK 0x3 x kk
  | .sneImm x kk => encodeXKK 0x4 x kk
  | .seReg x y => encodeXYN 0x5 x y 0x0
  | .sneReg x y => encodeXYN 0x9 x y 0x0
  | .ldImm x kk => encodeXKK 0x6 x kk
  | .addImm x kk => encodeXKK 0x7 x kk
  | .ldReg x y => encodeXYN 0x8 x y 0x0
  | .orReg x y => encodeXYN 0x8 x y 0x1
  | .andReg x y => encodeXYN 0x8 x y 0x2
  | .xorReg x y => encodeXYN 0x8 x y 0x3
  | .addReg x y => encodeXYN 0x8 x y 0x4
  | .subReg x y => encodeXYN 0x8 x y 0x5
  | .shr x => encodeXYN 0x8 x 0 0x6
  | .subnReg x y => encodeXYN 0x8 x y 0x7
  | .shl x => encodeXYN 0x8 x 0 0xE
  | .ldI nnn => encodeNNN 0xA nnn
  | .addI x => encodeXS 0xF x 0x1E
  | .ldF x => encodeXS 0xF x 0x29
  | .storeRegs x => encodeXS 0xF x 0x55
  | .loadRegs x => encodeXS 0xF x 0x65
  | .ldB x => encodeXS 0xF x 0x33
  | .rnd x kk => encodeXKK 0xC x kk
  | .skp x => encodeXS 0xE x 0x9E
  | .sknp x => encodeXS 0xE x 0xA1
  | .ldKey x => encodeXS 0xF x 0x0A
  | .getDT x => encodeXS 0xF x 0x07
  | .setDT x => encodeXS 0xF x 0x15
  | .setST x => encodeXS 0xF x 0x18
  | .drw x y n => encodeXYN 0xD x y n.val
  | .nop => 0x0001

/-- The bytes of an instruction as memory holds them, high byte at the lower address (20_memory.md R63). -/
def encodeBytes (i : Instr) : List Byte := [highByte (encode i), lowByte (encode i)]

/-- The 16-bit word that `nbits` bits `w` of an opcode-table row stand for: the bits above `nbits` are 0. -/
def tableWord (nbits w : Nat) : Word := BitVec.ofNat 16 (w % 2 ^ nbits)

/-- The instruction the decoder reads from the word of an opcode-table row, laid out as memory holds it. -/
def decodeTableWord (nbits w : Nat) : Option Instr :=
  match decode [highByte (tableWord nbits w), lowByte (tableWord nbits w)] with
  | .ok (i, _) => some i
  | .error _ => none

end Sys2Proof
end

