-- ==== Sys2Proof/Machine/Defaults.lean ====
section
/-! DEFINITION. The default values of the open parameters (00_scope.md R4, R5; 20_memory.md R61): the
configuration of the machine at State.reset. -/

namespace Sys2Proof.Machine

/-- The 80 default font bytes, glyphs 0 to F, five rows each (table of 20_memory.md R61). UNVERIFIED:
the spec takes them from general knowledge (93_implementation_defined.md G3; log 2), unsafe. -/
def defaultFontData : List Byte :=
  [0xF0, 0x90, 0x90, 0x90, 0xF0,  0x20, 0x60, 0x20, 0x20, 0x70,
   0xF0, 0x10, 0xF0, 0x80, 0xF0,  0xF0, 0x10, 0xF0, 0x10, 0xF0] ++
  [0x90, 0x90, 0xF0, 0x10, 0x10,  0xF0, 0x80, 0xF0, 0x10, 0xF0,
   0xF0, 0x80, 0xF0, 0x90, 0xF0,  0xF0, 0x10, 0x20, 0x40, 0x40] ++
  [0xF0, 0x90, 0xF0, 0x90, 0xF0,  0xF0, 0x90, 0xF0, 0x10, 0xF0,
   0xF0, 0x90, 0xF0, 0x90, 0x90,  0xE0, 0x90, 0xE0, 0x90, 0xE0] ++
  [0xF0, 0x80, 0x80, 0x80, 0xF0,  0xE0, 0x90, 0x90, 0x90, 0xE0,
   0xF0, 0x80, 0xF0, 0x80, 0xF0,  0xF0, 0x80, 0xF0, 0x80, 0x80]

/-- The defaults of 00_scope.md R4: START_ADDRESS 0x200 and FONT_BASE 0x050 (UNVERIFIED, from the spec's
general knowledge, G2, G3; log 2), both policies `fault` (the spec's choice, 92_eei_decisions.md D2, D3; log 3). -/
def defaultParams : Params where
  startAddress := 0x200
  fontBase := 0x050
  fontData := defaultFontData
  oobPolicy := .fault
  stackPolicy := .fault

end Sys2Proof.Machine
end

