-- ==== Sys2Proof/Machine/State.lean ====
section
/-! DEFINITION. The state of the machine (10_state.md section 1, R20 to R35), the fault causes (60_exceptions.md
R221), the host's commands (00_scope.md R8), and the state after reset (R34). -/

namespace Sys2Proof.Machine

/-- The fault causes of 60_exceptions.md R221, what the fault latch can hold beside "none". A cause is not a
stop of the model: a STEP that faults answers a NEXT state whose latch holds it (R223; log 4, safe). -/
inductive Cause where
  /-- cause 1, raised by the fetch of a STEP when pc or pc + 1 is above 0xFFF, OOB_POLICY = fault -/
  | fetchAddressRange
  /-- cause 2, raised by DRW, LD B, LD [I] and LD Vx,[I] for an address above 0xFFF, OOB_POLICY = fault -/
  | dataAddressRange
  /-- cause 3, raised by CALL when sp = 16, STACK_POLICY = fault -/
  | stackOverflow
  /-- cause 4, raised by RET when sp = 0, STACK_POLICY = fault -/
  | stackUnderflow
  /-- cause 5, raised by SKP and SKNP when V[x] > 15, OOB_POLICY = fault -/
  | keyIndexRange
deriving DecidableEq, Repr

/-- "The cause code is the value the fault latch takes" (60_exceptions.md R221). -/
def Cause.code : Cause → Nat
  | .fetchAddressRange => 1
  | .dataAddressRange => 2
  | .stackOverflow => 3
  | .stackUnderflow => 4
  | .keyIndexRange => 5

/-- The stops of the model itself. -/
inductive Fault where
  /-- Raised by CALL and RET when the 5-bit register sp names no stack slot: sp above 16 (above 15 under
  STACK_POLICY = wrap) for CALL, above 16 for RET under `fault`. "values 17 to 31 are unreachable" (10_state.md
  R25), so the spec gives no effect; no state that keeps the invariant of Safety.lean raises it (log 5). Safe. -/
  | stackPointerRange
deriving DecidableEq, Repr

/-- Why an instruction would have no meaning. No meaning of this model answers with a refusal. -/
inductive Refusal where
  /-- Raised by no arm of `exec`: every instruction of the table has its meaning. Safe. -/
  | notModelled (mnemonic : String)
deriving DecidableEq, Repr

/-- The commands and host events of 00_scope.md R8, each atomic (R7). The ranges of R8 are the types: a key
0 to 15, an address 0 to 0xFFF. -/
inductive Command where
  /-- STEP(rnd): one cycle with the host's byte (40_cycle_and_dispatch.md R120, 60_exceptions.md R232) -/
  | step (rnd : Byte)
  /-- TICK (60_exceptions.md R227) -/
  | tick
  /-- RESET (70_reset_and_hazards.md R250) -/
  | reset
  /-- KeySet(k, b) (60_exceptions.md R230) -/
  | keySet (k : Nibble) (pressed : Bool)
  /-- MemLoad(a, v) (60_exceptions.md R237) -/
  | memLoad (a : Addr) (v : Byte)
deriving DecidableEq, Repr

/-- The 4096 bytes of memory, as the list of the bytes that differ from their reset value, addresses rising
(Machine/Memory.lean; log 9). -/
abbrev Memory := List Host.Cell

/-- The 64x32 grid of pixels, `video[y][x]`, row y 0 to 31, column x 0 to 63 (10_state.md R30). -/
abbrev Video := Vector (Vector Bool 64) 32

/-- All the state of the machine: the table of 10_state.md section 1, and four fields of the model's own. -/
@[ext]
structure State where
  /-- V[0] to V[15] (10_state.md R20) -/
  V : Vector Byte 16
  /-- the index register (R22) -/
  I : Word
  /-- the program counter (R23) -/
  pc : Word
  /-- the stack pointer, 5 bits (R25) -/
  sp : BitVec 5
  /-- the call-stack slots (R27) -/
  stack : Vector Word 16
  /-- the delay timer (R26) -/
  DT : Byte
  /-- the sound timer (R26) -/
  ST : Byte
  /-- the current-opcode register (R28) -/
  opcode : Word
  /-- memory (R29) -/
  mem : Memory
  /-- the video buffer (R30) -/
  video : Video
  /-- the keypad, true = pressed (R31) -/
  keypad : Vector Bool 16
  /-- the fault latch, `none` = 0 (R32) -/
  fault : Option Cause
  /-- the open parameters (00_scope.md R4), constant; the model's own field (log 1) -/
  params : Params
  /-- the byte the STEP being executed carries (60_exceptions.md R232); the model's own field (log 8) -/
  rnd : Byte
  /-- how many unscheduled STEPs have been issued, the argument of `Config.hostByte`; the model's own field (log 7) -/
  draws : Nat
  /-- the host's commands not yet taken, oldest first (00_scope.md R8); the model's own field (log 6) -/
  schedule : List Command
deriving DecidableEq, Repr

/-- Every piece of state at its value of 10_state.md R34, for the given parameters. Memory lists nothing: a byte
not listed reads as R34 says. `rnd`, `draws` and `schedule` are the model's own: 0, 0 and empty, DESIGN CHOICE
(log 8), unsafe. -/
def State.resetWith (p : Params) : State where
  V := Vector.replicate 16 0
  I := 0
  pc := p.startAddress
  sp := 0
  stack := Vector.replicate 16 0
  DT := 0
  ST := 0
  opcode := 0
  mem := []
  video := Vector.replicate 32 (Vector.replicate 64 false)
  keypad := Vector.replicate 16 false
  fault := none
  params := p
  rnd := 0
  draws := 0
  schedule := []

/-- The machine right after RESET (10_state.md R34), with the default parameters of 00_scope.md R4. -/
def State.reset : State := State.resetWith defaultParams

end Sys2Proof.Machine
end

