-- ==== Sys2Proof/Machine/Memory.lean ====
section
/-! DEFINITION. Memory as a canonical list: what an unlisted byte reads as, reading, writing, and the canonical
form (20_memory.md R60, R61, R65; 10_state.md R34; log 9). -/

namespace Sys2Proof.Machine

/-- What an address nobody has written reads as: "mem[FONT_BASE + i] = FONT_DATA[i], 0 <= i < 80", "every other
mem[a] = 0" (10_state.md R34). -/
def resetByte (p : Params) (a : Nat) : Byte :=
  if p.fontBase.toNat ≤ a ∧ a < p.fontBase.toNat + 80 then p.fontData.getD (a - p.fontBase.toNat) 0 else 0

/-- The listed byte at an address, if there is one. -/
def Memory.find (a : Nat) : Memory → Option Byte
  | [] => none
  | (b, w) :: m => if a = b then some w else Memory.find a m

/-- The byte at an address: "returns mem[addr] and changes nothing" (20_memory.md R65). -/
def Memory.read (p : Params) (m : Memory) (a : Nat) : Byte := (Memory.find a m).getD (resetByte p a)

/-- List `v` at `a`, or take the entry out where `v` is the value `d` an unlisted `a` reads as. -/
def Memory.put (d : Byte) (a : Nat) (v : Byte) : Memory → Memory
  | [] => if v = d then [] else [(a, v)]
  | (b, w) :: m =>
    if a < b then (if v = d then (b, w) :: m else (a, v) :: (b, w) :: m)
    else if a = b then (if v = d then m else (a, v) :: m)
    else (b, w) :: Memory.put d a v m

/-- "sets mem[addr] <- v and nothing else" (20_memory.md R65). -/
def Memory.write (p : Params) (m : Memory) (a : Nat) (v : Byte) : Memory := Memory.put (resetByte p a) a v m

/-- The canonical form from address `lo` on: addresses rise, lie in 0 to 0xFFF, and no entry equals the byte an
unlisted address reads as. -/
def Memory.wfFrom (p : Params) : Nat → Memory → Bool
  | _, [] => true
  | lo, (a, v) :: m => decide (lo ≤ a) && decide (a ≤ 0xFFF) && v != resetByte p a && Memory.wfFrom p (a + 1) m

/-- The canonical form of memory: equal memories are equal lists. -/
def Memory.wf (p : Params) (m : Memory) : Bool := Memory.wfFrom p 0 m

/-- The byte at a resolved address, `MemRead(addr, 1)` (20_memory.md R65). -/
def State.readByte (s : State) (a : Nat) : Byte := Memory.read s.params s.mem a

/-- `MemWrite(addr, 1, v)` (20_memory.md R65). -/
def State.writeByte (s : State) (a : Nat) (v : Byte) : State :=
  { s with mem := Memory.write s.params s.mem a v }

/-- Several stores, in the order listed. -/
def State.storeBytes : List Host.Cell → State → State
  | [], s => s
  | (a, v) :: rest, s => State.storeBytes rest (s.writeByte a v)

end Sys2Proof.Machine
end

