-- ==== Sys2Proof/Machine/Operands.lean ====
section
/-! DEFINITION. Operands: the registers, address resolution (20_memory.md R64), key index resolution (46_input.md
R198), pixels, and the values instructions make of their operands. -/

namespace Sys2Proof.Machine

/-! General registers (10_state.md R20): none is hardwired, all 16 are readable and writable. -/

/-- V[x]. -/
def State.reg (s : State) (x : Nibble) : Byte := s.V[x.val]

/-- V[x] <- b. -/
def State.setReg (s : State) (x : Nibble) (b : Byte) : State := { s with V := s.V.set x.val b x.isLt }

/-- Registers from number `k` on loaded with the bytes in order (44_memory_index.md R184). -/
def State.setRegsFrom : Nat → List Byte → State → State
  | _, [], s => s
  | k, b :: bs, s => State.setRegsFrom (k + 1) bs (s.setReg (Fin.ofNat 16 k) b)

/-- V[0] to V[x], in order: the bytes `LD [I], Vx` stores (44_memory_index.md R183). -/
def State.regsUpTo (s : State) (x : Nibble) : List Byte := s.V.toList.take (x.val + 1)

/-! The program counter. -/

/-- "pc <- (pc + 2) mod 65536": the advance, and a taken skip (10_state.md R24). -/
def State.nextPc (s : State) : State := { s with pc := s.pc + 2 }

/-- "pc <- (pc - 2) mod 65536": the key-wait rewind (10_state.md R24, 46_input.md R197). -/
def State.rewindPc (s : State) : State := { s with pc := s.pc - 2 }

/-- A skip taken iff the condition holds (42_conditional_skip.md). -/
def State.skipIf (s : State) (c : Bool) : State := if c then s.nextPc else s

/-! Addresses. -/

/-- The kinds of access that 20_memory.md R64 tells apart. -/
inductive Access where
  | fetch
  | data
deriving DecidableEq, Repr

/-- "raise FetchAddressRange (kind = fetch, cause 1), raise DataAddressRange (kind = data, cause 2)" (R64). -/
def Access.cause : Access → Cause
  | .fetch => .fetchAddressRange
  | .data => .dataAddressRange

/-- `EA_fetch(a)` and `EA_data(a)` for a natural number `a` (20_memory.md R64). -/
def State.ea (s : State) (k : Access) (a : Nat) : Except Cause Nat :=
  if a ≤ 0xFFF then .ok a
  else match s.params.oobPolicy with
    | .wrap => .ok (a % 4096)
    | .fault => .error k.cause

/-- `EA_data` of `base`, `base + 1`, … , `n` of them, "all resolved first" (R65; 44_memory_index.md section 1). -/
def State.eaBlock (s : State) (base : Nat) : Nat → Except Cause (List Nat)
  | 0 => .ok []
  | n + 1 =>
    match s.ea .data base with
    | .error c => .error c
    | .ok a =>
      match State.eaBlock s (base + 1) n with
      | .error c => .error c
      | .ok as => .ok (a :: as)

/-! Keys. -/

/-- `KeyIndex(v)` (46_input.md R198). -/
def State.keyIndex (s : State) (v : Byte) : Except Cause Nibble :=
  if v.toNat ≤ 15 then .ok (Fin.ofNat 16 v.toNat)
  else match s.params.oobPolicy with
    | .wrap => .ok (Fin.ofNat 16 v.toNat)
    | .fault => .error .keyIndexRange

/-- keypad[k]. -/
def State.key (s : State) (k : Nibble) : Bool := s.keypad[k.val]

/-- The smallest pressed key from `k` on, looking at `fuel` keys (46_input.md R197). -/
def State.pressedFrom (s : State) : Nat → Nat → Option Nibble
  | _, 0 => none
  | k, fuel + 1 => if s.key (Fin.ofNat 16 k) then some (Fin.ofNat 16 k) else State.pressedFrom s (k + 1) fuel

/-- "the smallest k in 0 .. 15 with keypad[k] = 1", if any key is pressed (46_input.md R197). The smallest is the
spec's decision D10 (log 13), unsafe. -/
def State.lowestPressed (s : State) : Option Nibble := s.pressedFrom 0 16

/-! Pixels. -/

/-- video[y][x]. -/
def Video.get (v : Video) (y : Fin 32) (x : Fin 64) : Bool := v[y.val][x.val]

/-- "video[py][px] <- video[py][px] XOR 1" (48_draw.md R210). -/
def Video.flip (v : Video) (y : Fin 32) (x : Fin 64) : Video :=
  v.set y.val (v[y.val].set x.val (!v[y.val][x.val]) x.isLt) y.isLt

/-- All pixels off (41_control_flow.md R140). -/
def Video.clear : Video := Vector.replicate 32 (Vector.replicate 64 false)

/-- The pixel the host reads (60_exceptions.md R233). -/
def State.pixel (s : State) (y : Fin 32) (x : Fin 64) : Bool := Video.get s.video y x

/-! Values. -/

/-- `zext_16(nnn)` (30_encoding.md R92). -/
def zextAddr (a : Addr) : Word := a.setWidth 16

/-- `zext_16(V[x])`. -/
def zextByte (b : Byte) : Word := b.setWidth 16

/-- "(FONT_BASE + 5 * V[x]) mod 65536", the whole byte, no mask (44_memory_index.md R182). -/
def glyphAddress (p : Params) (digit : Byte) : Word := BitVec.ofNat 16 (p.fontBase.toNat + 5 * digit.toNat)

/-- Hundreds, tens and ones (44_memory_index.md R185). -/
def bcdDigits (v : Byte) : List Byte :=
  [BitVec.ofNat 8 (v.toNat / 100), BitVec.ofNat 8 (v.toNat / 10 % 10), BitVec.ofNat 8 (v.toNat % 10)]

end Sys2Proof.Machine
end

