-- ==== Sys2Proof/Machine/Flags.lean ====
section
/-! DEFINITION. The only flag is V[15] (10_state.md R21, section 4). Every flag computation of the spec, and the
write of a result with its flag. -/

namespace Sys2Proof.Machine

/-- The register that reports outcomes, VF. -/
def flagReg : Nibble := 15

/-- A flag is written as 0 or 1, never another value (10_state.md R21). -/
def flagByte (c : Bool) : Byte := if c then 1 else 0

/-- Carry out of `a + b`: 1 iff the 9-bit sum exceeds 255 (43_register_alu.md R166, R172). -/
def carryOut (a b : Byte) : Byte := flagByte (decide (a.toNat + b.toNat > 255))

/-- The "not-borrow" of `minuend - subtrahend`: 1 iff the minuend is STRICTLY greater, 0 when equal
(43_register_alu.md R167, R169, R172; 90_conflicts.md C6). -/
def exceeds (minuend subtrahend : Byte) : Byte := flagByte (decide (minuend.toNat > subtrahend.toNat))

/-- The bit a right shift loses, `a mod 2` (R168). -/
def shiftedOutRight (a : Byte) : Byte := BitVec.ofNat 8 (a.toNat % 2)

/-- The bit a left shift loses, `a div 128` (R170). -/
def shiftedOutLeft (a : Byte) : Byte := BitVec.ofNat 8 (a.toNat / 128)

/-- The result to V[x], then the flag to V[15]: with x = 15 THE FLAG WINS (43_register_alu.md R171). The order is
the spec's decision D8 (log 11), unsafe where x = 15. -/
def State.writeWithFlag (s : State) (x : Nibble) (result flag : Byte) : State :=
  (s.setReg x result).setReg flagReg flag

end Sys2Proof.Machine
end

