-- ==== Sys2Proof/Machine/Ops.lean ====
section
/-! DEFINITION. The shared operations: taking a fault (60_exceptions.md R223), the all-or-nothing rule of a cycle
(40_cycle_and_dispatch.md R125), access to a block of memory, the call stack, and the fetch. There is no return from a
fault (60_exceptions.md R224). -/

namespace Sys2Proof.Machine

/-- TAKING A FAULT: "fault <- code; every other piece of state keeps its value" (60_exceptions.md R223). There is no
vector, no saved pc, no mode change. A next state, not a stop of the model (log 4, safe). -/
def State.raise (s : State) (c : Cause) : Host.Outcome State Fault Refusal := .next { s with fault := some c }

/-- R125: "A STEP either commits completely or … commits nothing". `before` is the state the STEP found; where the
handler left the latch set, the STEP is `before` with that latch and nothing else of what the cycle or the handler
did (log 10, safe). -/
def settle (before : State) : Host.Outcome State Fault Refusal → Host.Outcome State Fault Refusal
  | .next t =>
    match t.fault with
    | none => .next t
    | some c => before.raise c
  | .fault r => .fault r
  | .refused r => .refused r

/-- Resolve the `n` data addresses from `I` on, or raise; then go on with them (44_memory_index.md section 1). -/
def State.withBlock (s : State) (n : Nat) (f : List Nat → State) : Host.Outcome State Fault Refusal :=
  match s.eaBlock s.I.toNat n with
  | .error c => s.raise c
  | .ok addrs => .next (f addrs)

/-- What a push or a pop finds at sp: a slot, a fault of the spec, or a value of sp that names no slot. -/
inductive StackSlot where
  | slot (k : Nibble)
  | raises (c : Cause)
  | absent
deriving DecidableEq, Repr

/-- The slot of number `k`, if the stack has it. -/
def slotAt (k : Nat) : StackSlot := if k < 16 then .slot (Fin.ofNat 16 k) else .absent

/-- The slot a push writes: stack[sp]; under STACK_POLICY = fault a push at 16 raises StackOverflow
(41_control_flow.md R143). -/
def State.pushSlot (s : State) : StackSlot :=
  match s.params.stackPolicy with
  | .fault => if s.sp.toNat = 16 then .raises .stackOverflow else slotAt s.sp.toNat
  | .wrap => slotAt s.sp.toNat

/-- The slot a pop reads, "pop decrements then reads": under STACK_POLICY = fault a pop at 0 raises StackUnderflow,
under wrap 0 becomes 15 (41_control_flow.md R141). -/
def State.popSlot (s : State) : StackSlot :=
  match s.params.stackPolicy with
  | .fault => if s.sp.toNat = 0 then .raises .stackUnderflow else slotAt (s.sp.toNat - 1)
  | .wrap => .slot (Fin.ofNat 16 (s.sp.toNat + 15))

/-- sp after a push to slot `k`: `k + 1`, under wrap modulo 16 (41_control_flow.md R143). -/
def State.spAfterPush (s : State) (k : Nibble) : BitVec 5 :=
  match s.params.stackPolicy with
  | .fault => BitVec.ofNat 5 (k.val + 1)
  | .wrap => BitVec.ofNat 5 ((k.val + 1) % 16)

/-- "stack[sp] <- pc; sp <- sp + 1" for the slot `k` (41_control_flow.md R143). -/
def State.pushPc (s : State) (k : Nibble) : State :=
  { s with stack := s.stack.set k.val s.pc k.isLt, sp := s.spAfterPush k }

/-- "sp <- sp - 1; pc <- stack[sp]" for the slot `k`; the slot keeps its value (41_control_flow.md R141). -/
def State.popPc (s : State) (k : Nibble) : State := { s with sp := BitVec.ofNat 5 k.val, pc := s.stack[k.val] }

/-- The fetch: two byte reads at pc and pc + 1, big-endian; pc + 1 is a natural number
(40_cycle_and_dispatch.md R121). -/
def State.fetchWord (s : State) : Except Cause Word :=
  match s.ea .fetch s.pc.toNat with
  | .error c => .error c
  | .ok a0 =>
    match s.ea .fetch (s.pc.toNat + 1) with
    | .error c => .error c
    | .ok a1 => .ok (wordOfBytes (s.readByte a0) (s.readByte a1))

/-- The commit of a cycle before its handler runs: the byte of the STEP, "opcode <- w", "pc <- (pc + 2) mod 65536"
(40_cycle_and_dispatch.md R120, R122). -/
def State.commitFetch (s : State) (rnd : Byte) (w : Word) : State :=
  { s with rnd := rnd, opcode := w, pc := s.pc + 2 }

/-- "sound_on = 1 iff ST != 0" (60_exceptions.md R229). -/
def State.soundOn (s : State) : Bool := s.ST != 0

/-- The fault output: 0 or a cause code 1 to 5 (60_exceptions.md R221). -/
def State.faultCode (s : State) : Nat :=
  match s.fault with
  | none => 0
  | some c => c.code

end Sys2Proof.Machine
end

