-- ==== Sys2Proof/Machine/ControlFlow.lean ====
section
/-! DEFINITION. Control flow (41_control_flow.md R140 to R144) and the no-op (40_cycle_and_dispatch.md R124). In every
meaning pc is already advanced (R122). -/

namespace Sys2Proof.Machine

/-- CLS: all 2048 pixels off (R140). -/
def execCls (s : State) : Host.Outcome State Fault Refusal := .next { s with video := Video.clear }

/-- RET: pop stack into program counter (R141). -/
def execRet (s : State) : Host.Outcome State Fault Refusal :=
  match s.popSlot with
  | .slot k => .next (s.popPc k)
  | .raises c => s.raise c
  | .absent => .fault .stackPointerRange

/-- JP nnn: pc <- zext_16(nnn) (R142). -/
def execJp (nnn : Addr) (s : State) : Host.Outcome State Fault Refusal := .next { s with pc := zextAddr nnn }

/-- CALL nnn: push the advanced pc, jump (R143). -/
def execCall (nnn : Addr) (s : State) : Host.Outcome State Fault Refusal :=
  match s.pushSlot with
  | .slot k => .next { s.pushPc k with pc := zextAddr nnn }
  | .raises c => s.raise c
  | .absent => .fault .stackPointerRange

/-- JP V0, nnn: pc <- (nnn + V[0]) mod 65536; the register is always V[0] (R144). -/
def execJpV0 (nnn : Addr) (s : State) : Host.Outcome State Fault Refusal :=
  .next { s with pc := zextAddr nnn + zextByte (s.reg 0) }

/-- NOP: reads nothing, writes nothing (R124). -/
def execNop (s : State) : Host.Outcome State Fault Refusal := .next s

end Sys2Proof.Machine
end

