-- ==== Sys2Proof/Machine/Draw.lean ====
section
/-! DEFINITION. The sprite-draw unit and its collision detector (48_draw.md R210 to R213): the loops of R210. A pair is
the video buffer and whether an on pixel has been turned off so far. -/

namespace Sys2Proof.Machine

/-- One set sprite bit: note a collision if the pixel is on, then XOR it (R210, R212). -/
def drawPixel (y : Fin 32) (x : Fin 64) (vc : Video × Bool) : Video × Bool :=
  (Video.flip vc.1 y x, vc.2 || Video.get vc.1 y x)

/-- The columns listed of one sprite row: column `c` is bit `7 - c` of the byte, at px = (ox + c) mod 64 (R210). -/
def drawColumns (row : Byte) (ox : Nat) (y : Fin 32) : List Nat → Video × Bool → Video × Bool
  | [], vc => vc
  | c :: cs, vc =>
    drawColumns row ox y cs
      (if row.getLsbD (7 - c) then drawPixel y (Fin.ofNat 64 (ox + c)) vc else vc)

/-- The eight columns, "most-significant first" (R210). -/
def spriteColumns : List Nat := [0, 1, 2, 3, 4, 5, 6, 7]

/-- The sprite rows from row `r` on: row `r` is drawn at py = (oy + r) mod 32 (R210, R211). -/
def drawRows (ox oy : Nat) : Nat → List Byte → Video × Bool → Video × Bool
  | _, [], vc => vc
  | r, row :: rows, vc =>
    drawRows ox oy (r + 1) rows (drawColumns row ox (Fin.ofNat 32 (oy + r)) spriteColumns vc)

/-- DRW Vx, Vy, n: origin and sprite rows are read first, then the pixels and V[15] are written (R210). Reading the
origin before V[15] is cleared is the spec's decision D9 (log 12), unsafe where x or y is 15. -/
def execDrw (x y n : Nibble) (s : State) : Host.Outcome State Fault Refusal :=
  s.withBlock n.val fun addrs =>
    let drawn := drawRows ((s.reg x).toNat % 64) ((s.reg y).toNat % 32) 0 (addrs.map s.readByte) (s.video, false)
    { s with video := drawn.1 }.setReg flagReg (flagByte drawn.2)

end Sys2Proof.Machine
end

