-- ==== Sys2Proof/Machine/Input.lean ====
section
/-! DEFINITION. Keypad instructions (46_input.md R195 to R198). -/

namespace Sys2Proof.Machine

/-- SKP Vx: skip if the key is pressed (R195). -/
def execSkp (x : Nibble) (s : State) : Host.Outcome State Fault Refusal :=
  match s.keyIndex (s.reg x) with
  | .error c => s.raise c
  | .ok k => .next (s.skipIf (s.key k))

/-- SKNP Vx: skip if the key is not pressed (R196). -/
def execSknp (x : Nibble) (s : State) : Host.Outcome State Fault Refusal :=
  match s.keyIndex (s.reg x) with
  | .error c => s.raise c
  | .ok k => .next (s.skipIf (!s.key k))

/-- LD Vx, K: with no key pressed undo the advance of pc, else store the smallest pressed key (R197). -/
def execLdKey (x : Nibble) (s : State) : Host.Outcome State Fault Refusal :=
  match s.lowestPressed with
  | none => .next s.rewindPc
  | some k => .next (s.setReg x (BitVec.ofNat 8 k.val))

end Sys2Proof.Machine
end

