-- ==== Sys2Proof/Machine/MemIndex.lean ====
section
/-! DEFINITION. Memory and index register (44_memory_index.md R180 to R185). No instruction here changes I as a side
effect of an access; all addresses are resolved, and may raise, before anything is written. -/

namespace Sys2Proof.Machine

/-- LD I, nnn (R180). -/
def execLdI (nnn : Addr) (s : State) : Host.Outcome State Fault Refusal := .next { s with I := zextAddr nnn }

/-- ADD I, Vx: modulo 65536, no flag (R181). -/
def execAddI (x : Nibble) (s : State) : Host.Outcome State Fault Refusal :=
  .next { s with I := s.I + zextByte (s.reg x) }

/-- LD F, Vx (R182). -/
def execLdF (x : Nibble) (s : State) : Host.Outcome State Fault Refusal :=
  .next { s with I := glyphAddress s.params (s.reg x) }

/-- LD [I], Vx: V[0] to V[x] to I, I + 1, … (R183). -/
def execStoreRegs (x : Nibble) (s : State) : Host.Outcome State Fault Refusal :=
  s.withBlock (x.val + 1) fun addrs => s.storeBytes (addrs.zip (s.regsUpTo x))

/-- LD Vx, [I]: V[0] to V[x] from I, I + 1, … (R184). -/
def execLoadRegs (x : Nibble) (s : State) : Host.Outcome State Fault Refusal :=
  s.withBlock (x.val + 1) fun addrs => s.setRegsFrom 0 (addrs.map s.readByte)

/-- LD B, Vx: three digits to I, I + 1, I + 2 (R185). -/
def execLdB (x : Nibble) (s : State) : Host.Outcome State Fault Refusal :=
  s.withBlock 3 fun addrs => s.storeBytes (addrs.zip (bcdDigits (s.reg x)))

end Sys2Proof.Machine
end

