-- ==== Sys2Proof/Machine/Random.lean ====
section
/-! DEFINITION. The random-number instruction (45_random.md R190). -/

namespace Sys2Proof.Machine

/-- RND Vx, kk: V[x] <- rnd AND kk, where `rnd` is the byte that came with this STEP (R190). -/
def execRnd (x : Nibble) (kk : Byte) (s : State) : Host.Outcome State Fault Refusal :=
  .next (s.setReg x (s.rnd &&& kk))

end Sys2Proof.Machine
end

