-- ==== Sys2Proof/Machine/Timers.lean ====
section
/-! DEFINITION. Timer instructions (47_timers.md R205 to R207). None of them decrements a timer. -/

namespace Sys2Proof.Machine

/-- LD Vx, DT (R205). -/
def execGetDT (x : Nibble) (s : State) : Host.Outcome State Fault Refusal := .next (s.setReg x s.DT)

/-- LD DT, Vx (R206). -/
def execSetDT (x : Nibble) (s : State) : Host.Outcome State Fault Refusal := .next { s with DT := s.reg x }

/-- LD ST, Vx (R207). -/
def execSetST (x : Nibble) (s : State) : Host.Outcome State Fault Refusal := .next { s with ST := s.reg x }

end Sys2Proof.Machine
end

