-- ==== Sys2Proof/Machine/Cycle.lean ====
section
/-! DEFINITION. The commands of 00_scope.md R8: STEP as one fetch-decode-execute cycle (40_cycle_and_dispatch.md R120),
TICK, RESET, KeySet and MemLoad (60_exceptions.md R227, R230, R237; 70_reset_and_hazards.md R250), and how a program is
put where the next STEP fetches. -/

namespace Sys2Proof.Machine

/-- STEP(rnd) (R120): a faulted core does nothing (R126); else fetch, commit opcode and pc, run the one handler;
a fault of the fetch or of the handler leaves only the latch changed (R125). -/
def cycle (rnd : Byte) (s : State) : Host.Outcome State Fault Refusal :=
  match s.fault with
  | some _ => .next s
  | none =>
    match s.fetchWord with
    | .error c => s.raise c
    | .ok w => settle s (exec (decodeWord w) (s.commitFetch rnd w))

/-- "if t > 0 then t <- t - 1": a timer at 0 stays at 0 (60_exceptions.md R227). -/
def countDown (t : Byte) : Byte := if t.toNat > 0 then t - 1 else t

/-- TICK on a core that is not faulted (60_exceptions.md R227). -/
def State.tick (s : State) : State := { s with DT := countDown s.DT, ST := countDown s.ST }

/-- KeySet(k, b) on a core that is not faulted (60_exceptions.md R230). -/
def State.keySet (s : State) (k : Nibble) (pressed : Bool) : State :=
  { s with keypad := s.keypad.set k.val pressed k.isLt }

/-- RESET: "every piece of state at the value of R34, whatever the state was before, including a faulted state"
(70_reset_and_hazards.md R250). What is not the block's state stays: the parameters, and the host's side, whose random
source RESET does not touch (R252). DESIGN CHOICE (log 16), safe. -/
def State.resetCommand (s : State) : State :=
  { State.resetWith s.params with rnd := s.rnd, draws := s.draws, schedule := s.schedule }

/-- An event on a core that ignores it while faulted (60_exceptions.md R224). -/
def State.unlessFaulted (s : State) (t : State) : State :=
  match s.fault with
  | some _ => s
  | none => t

/-- One command, to completion (00_scope.md R7, R8). -/
def command (c : Command) (s : State) : Host.Outcome State Fault Refusal :=
  match c with
  | .step rnd => cycle rnd s
  | .tick => .next (s.unlessFaulted s.tick)
  | .reset => .next s.resetCommand
  | .keySet k b => .next (s.unlessFaulted (s.keySet k b))
  | .memLoad a v => .next (s.unlessFaulted (s.writeByte a.toNat v))

/-- The next command of the host: the oldest of its schedule, or, where that is empty, a STEP with a byte that nobody
knows (45_random.md R190; logs 6 and 7). -/
def advance (s : State) : Host.Outcome State Fault Refusal :=
  match s.schedule with
  | c :: rest => command c { s with schedule := rest }
  | [] => command (.step (Config.hostByte s.draws)) { s with draws := s.draws + 1 }

/-- Whether a fetch at `pc` succeeds: "iff pc <= 0xFFE" under OOB_POLICY = fault (40_cycle_and_dispatch.md R121). -/
def State.canFetch (s : State) : Bool :=
  match s.params.oobPolicy with
  | .fault => decide (s.pc.toNat ≤ 0xFFE)
  | .wrap => true

/-- The address the next fetch starts at: pc, or START_ADDRESS where no fetch at pc can succeed (log 17). -/
def State.fetchPoint (s : State) : Word := if s.canFetch then s.pc else s.params.startAddress

/-- `s`, with the word stored where the next step fetches it, the latch clear, and no other command before the STEP.
It stands for the host's MemLoads of a program (70_reset_and_hazards.md R253; log 17). -/
def State.placeWord (s : State) (w : Word) : State :=
  { s.storeBytes [(s.fetchPoint.toNat % 4096, highByte w), ((s.fetchPoint.toNat + 1) % 4096, lowByte w)] with
    pc := s.fetchPoint, fault := none, schedule := [] }

end Sys2Proof.Machine
end

