-- ==== Sys2Proof/Machine/Step.lean ====
section
/-! DEFINITION. The step of the model: one command of the host (Machine/Cycle.lean). -/

namespace Sys2Proof.Machine

/-- One step: the oldest command of the schedule, or a STEP whose byte nobody knows. -/
def step (s : State) : Host.Outcome State Fault Refusal := advance s

/-- `s`, with the instruction word of an opcode-table row stored where `step` fetches its next instruction. -/
def State.withFetchWord (s : State) (nbits w : Nat) : State := s.placeWord (tableWord nbits w)

end Sys2Proof.Machine
end

