-- ==== Sys2Proof/Safety.lean ====
section
/-! DEFINITION. The invariant of the machine, what a safe step and an ended run are, and the words the statements of
Certificates/ are written in. -/

namespace Sys2Proof.Machine

/-- The largest legal sp: "0 to 16 (STACK_POLICY = fault), 0 to 15 (wrap)" (10_state.md R25, R35). -/
def spMax (p : Params) : Nat :=
  match p.stackPolicy with
  | .fault => 16
  | .wrap => 15

/-- Whether the governing parameter lets the cause be raised at all (60_exceptions.md R221). -/
def causeEnabled (p : Params) : Cause → Bool
  | .fetchAddressRange | .dataAddressRange | .keyIndexRange => p.oobPolicy == .fault
  | .stackOverflow | .stackUnderflow => p.stackPolicy == .fault

/-- The latch holds nothing, or a cause that its governing parameter enables (10_state.md R32). -/
def State.latchGoverned (s : State) : Bool :=
  match s.fault with
  | none => true
  | some c => causeEnabled s.params c

/-- The invariants of 10_state.md R35 that the types do not already make, with the constraints of 00_scope.md R5 and
the canonical form of memory. -/
abbrev State.Inv (s : State) : Prop :=
  s.params.wellFormed = true ∧ Memory.wf s.params s.mem = true ∧ s.sp.toNat ≤ spMax s.params ∧ s.latchGoverned = true

/-- A safe step: the machine goes on and no fault is latched. -/
def safeStep (s : State) : Prop := ∃ t, step s = .next t ∧ t.fault = none

/-- "a run as ENDED at a state s when fault = 0 and the instruction at pc is JP nnn with nnn = pc"
(70_reset_and_hazards.md R264; log 23). -/
def State.ended (s : State) : Bool :=
  match s.fault, s.fetchWord with
  | none, .ok w =>
    match decodeWord w with
    | .jp nnn => zextAddr nnn == s.pc
    | _ => false
  | _, _ => false

/-! Words of the statements. -/

/-- "an opcode w selects the row iff w AND mask = match" (30_encoding.md R100), with the operands `f` reads from it. -/
def Selects (mask pattern : Word) (f : Word → Instr) : Prop :=
  ∀ w : Word, w &&& mask = pattern ↔ decodeWord w = f w

/-- A set bit of the `n`-row sprite at I, drawn with its origin at (ox, oy), falls on pixel (px, py): "The pixel for row
r, column c is video[(oy + r) mod 32][(ox + c) mod 64]" (48_draw.md R211). -/
def SpriteCovers (s : State) (ox oy n : Nat) (py : Fin 32) (px : Fin 64) : Prop :=
  ∃ r c a, r < n ∧ c < 8 ∧ py.val = (oy + r) % 32 ∧ px.val = (ox + c) % 64 ∧
    s.ea .data (s.I.toNat + r) = .ok a ∧ (s.readByte a).getLsbD (7 - c) = true

/-- Every data address I + r with r < n resolves: OOB_POLICY = wrap, or none of them is above 0xFFF
(20_memory.md R64). -/
def BlockInReach (s : State) (n : Nat) : Prop :=
  s.params.oobPolicy = .wrap ∨ n = 0 ∨ s.I.toNat + (n - 1) ≤ 0xFFF

/-- Whether the skip of an instruction is taken: its own condition (42_conditional_skip.md, 46_input.md). The key is
V[x] mod 16, which is the key examined wherever one is (46_input.md R198). -/
def skipTaken (i : Instr) (s : State) : Bool :=
  match i with
  | .seImm x kk => s.reg x == kk
  | .sneImm x kk => s.reg x != kk
  | .seReg x y => s.reg x == s.reg y
  | .sneReg x y => s.reg x != s.reg y
  | .skp x => s.key (Fin.ofNat 16 (s.reg x).toNat)
  | .sknp x => !s.key (Fin.ofNat 16 (s.reg x).toNat)
  | _ => false

/-- The general registers an instruction may write: the table after 10_state.md R21. -/
def writesReg (i : Instr) (r : Nibble) : Bool :=
  match i with
  | .ldImm x _ | .rnd x _ | .getDT x | .ldKey x | .addImm x _ => r == x
  | .ldReg x _ | .orReg x _ | .andReg x _ | .xorReg x _ => r == x
  | .addReg x _ | .subReg x _ | .subnReg x _ => r == x || r == 15
  | .shr x | .shl x => r == x || r == 15
  | .loadRegs x => decide (r.val ≤ x.val)
  | .drw _ _ _ => r == 15
  | _ => false

/-- The instructions that may write pc beside the advance of the cycle: the rows of 40_cycle_and_dispatch.md section 5
that differ from its first. -/
def writesPc (i : Instr) : Bool :=
  match i with
  | .jp _ | .call _ | .ret | .jpV0 _ => true
  | .seImm _ _ | .sneImm _ _ | .seReg _ _ | .sneReg _ _ | .skp _ | .sknp _ | .ldKey _ => true
  | _ => false

/-- The instructions that may raise a fault of their own: the column "raised by" of 60_exceptions.md R221, rows 2
to 5. -/
def mayRaise (i : Instr) : Bool :=
  match i with
  | .drw _ _ _ | .ldB _ | .storeRegs _ | .loadRegs _ => true
  | .call _ | .ret | .skp _ | .sknp _ => true
  | _ => false

/-! Words of the statements: the host's commands. -/

/-- The next command of the host is the event `c`, and `b` is the state with it taken from the schedule. -/
def TakesEvent (s b : State) (c : Command) : Prop :=
  ∃ rest, s.schedule = c :: rest ∧ b = { s with schedule := rest }

/-- The next command of the host is STEP(rnd), and `b` is the state once the host's side has given it: a STEP of the
schedule with the byte named there, or, where the schedule is empty, a STEP with the host's free byte. -/
def TakesStep (s b : State) (rnd : Byte) : Prop :=
  TakesEvent s b (.step rnd) ∨
    (s.schedule = [] ∧ rnd = Config.hostByte s.draws ∧ b = { s with draws := s.draws + 1 })

/-- Every piece of the spec's state has the value of 10_state.md R34, for the state's own parameters. -/
def AtReset (t : State) : Prop :=
  (∀ r, t.reg r = 0) ∧ t.I = 0 ∧ t.pc = t.params.startAddress ∧ t.sp = 0 ∧ (∀ k : Nibble, t.stack[k.val] = 0) ∧
  t.DT = 0 ∧ t.ST = 0 ∧ t.opcode = 0 ∧
  (∀ i, i < 80 → t.readByte (t.params.fontBase.toNat + i) = t.params.fontData.getD i 0) ∧
  (∀ a, a < t.params.fontBase.toNat ∨ t.params.fontBase.toNat + 80 ≤ a → t.readByte a = 0) ∧
  (∀ y x, t.pixel y x = false) ∧ (∀ k, t.key k = false) ∧ t.fault = none

/-! Words of the statements: the tables of the spec. -/

/-- pc after a cycle that does not fault, with `p` = pc before the cycle: the table of 40_cycle_and_dispatch.md
section 5. The popped slot is the one below sp, modulo 16 (41_control_flow.md R141). -/
def pcAfter (i : Instr) (s : State) (p : Word) : Word :=
  match i with
  | .jp nnn => zextAddr nnn
  | .call nnn => zextAddr nnn
  | .ret => s.stack[(s.sp.toNat + 15) % 16]
  | .jpV0 nnn => BitVec.ofNat 16 (nnn.toNat + (s.reg 0).toNat)
  | .ldKey _ => if ∀ k, s.key k = false then p else p + 2
  | _ => if skipTaken i s then p + 4 else p + 2

/-- The fault of a handler, by the conditions of 60_exceptions.md R221, rows 2 to 5. -/
def handlerFault (i : Instr) (s : State) : Option Cause :=
  match i with
  | .drw _ _ n =>
    if s.params.oobPolicy = .fault ∧ n.val ≥ 1 ∧ s.I.toNat + n.val - 1 > 0xFFF then some .dataAddressRange else none
  | .ldB _ => if s.params.oobPolicy = .fault ∧ s.I.toNat + 2 > 0xFFF then some .dataAddressRange else none
  | .storeRegs x | .loadRegs x =>
    if s.params.oobPolicy = .fault ∧ s.I.toNat + x.val > 0xFFF then some .dataAddressRange else none
  | .call _ => if s.params.stackPolicy = .fault ∧ s.sp.toNat = 16 then some .stackOverflow else none
  | .ret => if s.params.stackPolicy = .fault ∧ s.sp.toNat = 0 then some .stackUnderflow else none
  | .skp x | .sknp x =>
    if s.params.oobPolicy = .fault ∧ (s.reg x).toNat > 15 then some .keyIndexRange else none
  | _ => none

/-- The fault of a STEP: the fetch is checked first, then the handler of the fetched word (60_exceptions.md R221
row 1, R225). -/
def stepFault (s : State) : Option Cause :=
  if s.params.oobPolicy = .fault ∧ s.pc.toNat > 0xFFE then some .fetchAddressRange
  else match s.fetchWord with
    | .ok w => handlerFault (decodeWord w) s
    | .error _ => none

end Sys2Proof.Machine
end

