-- ==== Sys2Proof/Certificates/Slice0/Obligations.lean ====
section
/-! DEFINITION. The statements for the provers. The words they use (Selects, TakesStep, TakesEvent, BlockInReach,
SpriteCovers, AtReset, pcAfter, handlerFault, stepFault, writesReg, writesPc, mayRaise) are defined in Safety.lean. A meaning runs on the
state whose pc is already advanced (40_cycle_and_dispatch.md R122). "∃ t, exec i s = .next t ∧ … ∧ t = { s with … }"
says that the instruction completes, what it writes, and that it writes nothing else. -/

open Sys2Proof Sys2Proof.Machine

/-! Encoding. -/

/-- Decoding the encoded word, or the encoded bytes, of any instruction gives it back with every operand
(30_encoding.md R90, R99, R100). -/
def Obligations.DecodeInvertsEncode : Prop :=
  ∀ (i : Instr) (rest : List Byte), decodeWord (encode i) = i ∧ decode (encodeBytes i ++ rest) = .ok (i, rest)

/-- The two-level decode of R94 to R98 is the mask-and-match map of R100: a word selects a row iff `w AND mask = match`,
and it is a NOP iff it selects none (30_encoding.md R99, R100). -/
def Obligations.DecodeFollowsOpcodeMap : Prop :=
  (∀ (w : Word) (row : OpcodeRow), row ∈ opcodeMap →
    (row.matchesWord w = true ↔ (decodeWord w).rowNumber = row.number)) ∧
  (∀ w : Word, (∀ row ∈ opcodeMap, row.matchesWord w = false) ↔ decodeWord w = .nop)

/-- The bits of the table of 30_encoding.md R102 are ignored: two words that agree on the other bits are the same
instruction. -/
def Obligations.DecodeIgnoresBits : Prop :=
  ∀ w w' : Word,
    (w &&& 0xF00F = w' &&& 0xF00F → decodeWord w = .cls ∨ decodeWord w = .ret → decodeWord w' = decodeWord w) ∧
    (w &&& 0xFFF0 = w' &&& 0xFFF0 → (∃ x y, decodeWord w = .seReg x y ∨ decodeWord w = .sneReg x y) →
      decodeWord w' = decodeWord w) ∧
    (w &&& 0xFF0F = w' &&& 0xFF0F → (∃ x, decodeWord w = .shr x ∨ decodeWord w = .shl x) →
      decodeWord w' = decodeWord w) ∧
    (w &&& 0xFF0F = w' &&& 0xFF0F → (∃ x, decodeWord w = .skp x ∨ decodeWord w = .sknp x) →
      decodeWord w' = decodeWord w) ∧
    (w &&& 0xF00F = w' &&& 0xF00F → tField w ≠ 0xF → decodeWord w = .nop → decodeWord w' = .nop) ∧
    (w &&& 0xF0FF = w' &&& 0xF0FF → decodeWord w = .nop → decodeWord w' = .nop)

/-- Words of 95_test_vectors.md 2.1, one or more a family, decode to the instruction listed there. -/
def Obligations.ListedWordsDecode : Prop :=
  decodeWord 0x0000 = .cls ∧ decodeWord 0x0ABE = .ret ∧ decodeWord 0x00EF = .nop ∧
  decodeWord 0x5127 = .seReg 1 2 ∧ decodeWord 0x9AB5 = .sneReg 10 11 ∧ decodeWord 0x8ABE = .shl 10 ∧
  decodeWord 0x8AB8 = .nop ∧ decodeWord 0xE0FE = .skp 0 ∧ decodeWord 0xE011 = .sknp 0 ∧
  decodeWord 0xF107 = .getDT 1 ∧ decodeWord 0xF055 = .storeRegs 0 ∧ decodeWord 0xF165 = .loadRegs 1 ∧
  decodeWord 0xF066 = .nop ∧ decodeWord 0xA230 = .ldI 0x230 ∧ decodeWord 0xBFFF = .jpV0 0xFFF ∧
  decodeWord 0xC0FF = .rnd 0 0xFF ∧ decodeWord 0xD000 = .drw 0 0 0

/-- Two bytes are one instruction, the first byte the high one, and fewer than two are refused
(20_memory.md R63, 30_encoding.md R90). -/
def Obligations.BytesDecodeBigEndian : Prop :=
  (∀ (hi lo : Byte) (rest : List Byte), ∃ w : Word,
    w.toNat = hi.toNat * 256 + lo.toNat ∧ decode (hi :: lo :: rest) = .ok (decodeWord w, rest)) ∧
  (∀ b : Byte, decode [b] = .error .truncated) ∧ decode [] = .error .truncated

/-! Reset. -/

/-- The state after reset has every value of 10_state.md R34, for any values of the open parameters; the fault latch,
which R34 names among them, is the spec's own (92_eei_decisions.md D4). Nothing sounds: R34 derives that from ST = 0 and
60_exceptions.md R229.
That START_ADDRESS is 0x200 at State.reset is a default of the spec (log 2) and is not claimed here. -/
def Obligations.ResetStateIsAsListed : Prop :=
  AtReset State.reset ∧ State.reset.soundOn = false ∧
  ∀ p : Params, AtReset (State.resetWith p) ∧ (State.resetWith p).params = p

/-- The RESET command puts every piece of state at the value of 10_state.md R34, whatever the state was before, a
faulted one included, and takes effect at once (70_reset_and_hazards.md R250); nothing sounds (R229). That RESET keeps
the parameters (00_scope.md R4: configuration, not state) and the rest of the host's schedule is the model's choice
(log 16), as R252 has it for the random source. -/
def Obligations.ResetCommandResetsEverything : Prop :=
  ∀ s b : State, TakesEvent s b .reset →
    ∃ t, step s = .next t ∧ AtReset t ∧ t.soundOn = false ∧ t.params = s.params ∧ t.schedule = b.schedule

/-- The invariant holds after reset, for any parameters that meet 00_scope.md R5. -/
def Obligations.ResetStateMeetsInvariant : Prop :=
  State.reset.Inv ∧ ∀ p : Params, p.wellFormed = true → (State.resetWith p).Inv

/-! Address and key resolution, memory. -/

/-- `EA_fetch` and `EA_data` (20_memory.md R64; that there are these two policies is the spec's decision D2, log 3). -/
def Obligations.AddressesResolveByPolicy : Prop :=
  ∀ (s : State) (a : Nat),
    (a ≤ 0xFFF → s.ea .fetch a = .ok a ∧ s.ea .data a = .ok a) ∧
    (a > 0xFFF → s.params.oobPolicy = .wrap → s.ea .fetch a = .ok (a % 4096) ∧ s.ea .data a = .ok (a % 4096)) ∧
    (a > 0xFFF → s.params.oobPolicy = .fault →
      s.ea .fetch a = .error .fetchAddressRange ∧ s.ea .data a = .error .dataAddressRange)

/-- `KeyIndex` (46_input.md R198; the spec's decision D11, log 3). -/
def Obligations.KeyIndexResolvesByPolicy : Prop :=
  ∀ (s : State) (v : Byte),
    (v.toNat ≤ 15 → ∃ k, s.keyIndex v = .ok k ∧ k.val = v.toNat) ∧
    (v.toNat > 15 → s.params.oobPolicy = .wrap → ∃ k, s.keyIndex v = .ok k ∧ k.val = v.toNat % 16) ∧
    (v.toNat > 15 → s.params.oobPolicy = .fault → s.keyIndex v = .error .keyIndexRange)

/-- MemWrite sets one cell and nothing else, MemRead returns the cell, and the canonical form is kept
(20_memory.md R65; the form is the model's, log 9). -/
def Obligations.MemoryReadsBackWrites : Prop :=
  ∀ (s : State) (a : Nat) (v : Byte), Memory.wf s.params s.mem = true → a ≤ 0xFFF →
    (s.writeByte a v).readByte a = v ∧
    (∀ c, c ≠ a → (s.writeByte a v).readByte c = s.readByte c) ∧
    s.writeByte a v = { s with mem := (s.writeByte a v).mem } ∧
    Memory.wf s.params (s.writeByte a v).mem = true

/-- Two canonical memories that read alike everywhere are the same data (the model's choice, log 9). -/
def Obligations.CanonicalMemoriesAreEqual : Prop :=
  ∀ (p : Params) (m m' : Memory), Memory.wf p m = true → Memory.wf p m' = true →
    (∀ a, Memory.read p m a = Memory.read p m' a) → m = m'

/-- The fetch: iff pc <= 0xFFE under OOB_POLICY = fault, always under wrap; two bytes, big-endian, pc + 1 a natural
number; no other condition, so an odd pc is fetched from like an even one (40_cycle_and_dispatch.md R121,
20_memory.md R67). -/
def Obligations.FetchReadsTwoBytesAtPc : Prop :=
  ∀ s : State,
    (s.params.oobPolicy = .fault → ((∃ w, s.fetchWord = .ok w) ↔ s.pc.toNat ≤ 0xFFE)) ∧
    (s.params.oobPolicy = .fault → s.pc.toNat > 0xFFE → s.fetchWord = .error .fetchAddressRange) ∧
    (s.pc.toNat ≤ 0xFFE → ∃ w, s.fetchWord = .ok w ∧
      w.toNat = (s.readByte s.pc.toNat).toNat * 256 + (s.readByte (s.pc.toNat + 1)).toNat) ∧
    (s.params.oobPolicy = .wrap → ∃ w, s.fetchWord = .ok w ∧
      w.toNat = (s.readByte (s.pc.toNat % 4096)).toNat * 256 + (s.readByte ((s.pc.toNat + 1) % 4096)).toNat)

/-! The cycle. -/

/-- STEP is one cycle: a faulted core does nothing; a fetch that raises, or a handler that raises, leaves the state as
it was but for the latch; else the one handler of the fetched word runs on the state with `opcode` the word and `pc`
advanced by 2 modulo 65536, and its result is the result of the cycle (40_cycle_and_dispatch.md R120, R122, R125,
R126). -/
def Obligations.StepRunsDecodedInstruction : Prop :=
  ∀ (s b : State) (rnd : Byte), TakesStep s b rnd →
    (s.fault ≠ none → step s = .next b) ∧
    (s.fault = none →
      (∀ c, s.ea .fetch s.pc.toNat = .error c ∨ s.ea .fetch (s.pc.toNat + 1) = .error c →
        step s = .next { b with fault := some c }) ∧
      ∀ a0 a1 i, s.ea .fetch s.pc.toNat = .ok a0 → s.ea .fetch (s.pc.toNat + 1) = .ok a1 →
        decode [s.readByte a0, s.readByte a1] = .ok (i, []) →
        let run := exec i { b with rnd := rnd, opcode := wordOfBytes (s.readByte a0) (s.readByte a1), pc := s.pc + 2 }
        (∀ t, run = .next t → t.fault = none → step s = .next t) ∧
        (∀ t c, run = .next t → t.fault = some c → step s = .next { b with fault := some c }) ∧
        (∀ r, run = .fault r → step s = .fault r))

/-- pc after a STEP: the table of 40_cycle_and_dispatch.md section 5, whose last row says that a cycle that faults
leaves pc. -/
def Obligations.PcFollowsTheTable : Prop :=
  ∀ (s b : State) (rnd : Byte) (w : Word) (t : State), TakesStep s b rnd → s.fault = none → s.fetchWord = .ok w →
    step s = .next t → t.pc = if t.fault = none then pcAfter (decodeWord w) s s.pc else s.pc

/-- Which fault a STEP takes, and when: the five rows of 60_exceptions.md R221, the fetch first (R225); with the code
of each cause. -/
def Obligations.StepFaultsExactlyAsListed : Prop :=
  (∀ (s b : State) (rnd : Byte) (t : State), TakesStep s b rnd → s.fault = none → step s = .next t →
    t.fault = stepFault s) ∧
  (Cause.fetchAddressRange.code = 1 ∧ Cause.dataAddressRange.code = 2 ∧ Cause.stackOverflow.code = 3 ∧
    Cause.stackUnderflow.code = 4 ∧ Cause.keyIndexRange.code = 5)

/-- Fault entry is precise: the STEP that faults writes the latch, and every other piece of state keeps its value from
before the STEP (60_exceptions.md R222, R223). -/
def Obligations.FaultsArePrecise : Prop :=
  ∀ (s b : State) (rnd : Byte) (t : State) (c : Cause), TakesStep s b rnd → s.fault = none → step s = .next t →
    t.fault = some c → t = { b with fault := some c }

/-- While the latch is set, STEP, TICK, KeySet and MemLoad leave every piece of state unchanged, only RESET has an
effect and it clears the latch, and a faulted state is no end of a run (60_exceptions.md R224). -/
def Obligations.FaultedCoreObeysOnlyReset : Prop :=
  ∀ s : State, s.fault ≠ none →
    (∀ b rnd, TakesStep s b rnd → step s = .next b) ∧
    (∀ b c, TakesEvent s b c → c ≠ .reset → step s = .next b) ∧
    (∀ b, TakesEvent s b .reset → ∃ t, step s = .next t ∧ t.fault = none) ∧
    s.ended = false

/-- With both policies `wrap` the latch is never set: no command sets it (10_state.md R32). -/
def Obligations.WrapPoliciesNeverLatch : Prop :=
  ∀ s t : State, s.params.oobPolicy = .wrap → s.params.stackPolicy = .wrap → s.fault = none →
    step s = .next t → t.fault = none

/-- The invariant of Safety.lean (10_state.md R35, 00_scope.md R5) is kept by every command, from every state that
meets it. -/
def Obligations.StepKeepsInvariant : Prop :=
  ∀ s t : State, s.Inv → step s = .next t → t.Inv

/-- Every command is enabled: from every state that meets the invariant a step answers a next state, so no wait and
no fault of the spec is a stuck state (40_cycle_and_dispatch.md R127, 70_reset_and_hazards.md R261). -/
def Obligations.EveryStepGoesOn : Prop :=
  ∀ s : State, s.Inv → ∃ t, step s = .next t

/-- A MemLoad of a word where the next STEP fetches is seen by that STEP, for every word: the state withFetchWord gives
fetches it, with a clear latch and no other command before it (20_memory.md R72; the placing is the model's, log 17). -/
def Obligations.PlacedWordIsFetchedNext : Prop :=
  ∀ (s : State) (w : Nat), s.Inv → w < 65536 →
    (s.withFetchWord 16 w).fetchWord = .ok (BitVec.ofNat 16 w) ∧ (s.withFetchWord 16 w).fault = none ∧
    (s.withFetchWord 16 w).schedule = [] ∧ (s.withFetchWord 16 w).V = s.V ∧ (s.withFetchWord 16 w).Inv

/-! The host's events and outputs. -/

/-- TICK: each timer that is above zero loses one, a timer at zero stays, and nothing else changes; a faulted core
ignores it (60_exceptions.md R227). -/
def Obligations.TickCountsTimersDown : Prop :=
  ∀ s b : State, TakesEvent s b .tick →
    (s.fault = none → ∃ t, step s = .next t ∧ t.DT.toNat = s.DT.toNat - 1 ∧ t.ST.toNat = s.ST.toNat - 1 ∧
      t = { b with DT := t.DT, ST := t.ST }) ∧
    (s.fault ≠ none → step s = .next b)

/-- KeySet(k, b): keypad[k] <- b and nothing else, unless the latch is set (60_exceptions.md R230). -/
def Obligations.KeySetSetsOneKey : Prop :=
  ∀ (s b : State) (k : Nibble) (p : Bool), TakesEvent s b (.keySet k p) →
    (s.fault = none → ∃ t, step s = .next t ∧ t.key k = p ∧ (∀ j, j ≠ k → t.key j = s.key j) ∧
      t = { b with keypad := t.keypad }) ∧
    (s.fault ≠ none → step s = .next b)

/-- MemLoad(a, v): mem[a] <- v and nothing else, unless the latch is set (60_exceptions.md R237). -/
def Obligations.MemLoadWritesOneByte : Prop :=
  ∀ (s b : State) (a : Addr) (v : Byte), TakesEvent s b (.memLoad a v) → Memory.wf s.params s.mem = true →
    (s.fault = none → ∃ t, step s = .next t ∧ t.readByte a.toNat = v ∧
      (∀ c, c ≠ a.toNat → t.readByte c = s.readByte c) ∧ t = { b with mem := t.mem }) ∧
    (s.fault ≠ none → step s = .next b)

/-- sound_on = 1 iff ST != 0 (60_exceptions.md R229). -/
def Obligations.SoundFollowsTheSoundTimer : Prop :=
  ∀ s : State, s.soundOn = true ↔ s.ST.toNat ≠ 0

/-- The block never writes the keypad, and TICK is the only event that counts the timers: a command that changes a key
is KeySet or RESET; one that changes DT or ST is TICK, RESET, or the STEP of LD DT, Vx or LD ST, Vx; and no command
changes the parameters (60_exceptions.md R227, R230; 40_cycle_and_dispatch.md R127; 00_scope.md R4). -/
def Obligations.OnlyTheirCommandsChangeKeysAndTimers : Prop :=
  ∀ s t : State, step s = .next t →
    (t.keypad ≠ s.keypad → ∃ rest, (∃ k p, s.schedule = .keySet k p :: rest) ∨ s.schedule = .reset :: rest) ∧
    (t.DT ≠ s.DT → (∃ rest, s.schedule = .tick :: rest ∨ s.schedule = .reset :: rest) ∨
      ∃ w x, s.fetchWord = .ok w ∧ decodeWord w = .setDT x ∧ t.DT = s.reg x) ∧
    (t.ST ≠ s.ST → (∃ rest, s.schedule = .tick :: rest ∨ s.schedule = .reset :: rest) ∨
      ∃ w x, s.fetchWord = .ok w ∧ decodeWord w = .setST x ∧ t.ST = s.reg x) ∧
    t.params = s.params

/-! Rules over all instructions. -/

/-- No instruction writes what its rule does not list (00_scope.md R6): the general registers by the table after
10_state.md R21; memory by LD [I], Vx and LD B, Vx alone (20_memory.md R66); video by CLS and DRW alone (R30); the
stack by CALL alone and sp by CALL and RET alone (R25, R27); I by LD I, ADD I and LD F alone (R22); DT and ST by
their loads alone (R26); pc, beside the advance of the cycle, by the jumps, CALL, RET, the skips and LD Vx, K alone
(40_cycle_and_dispatch.md section 5); the fault latch by the instructions that 60_exceptions.md R221 lists alone; opcode,
keypad, rnd, parameters and the host's side by none. -/
def Obligations.InstructionsWriteOnlyWhatTheirRulesList : Prop :=
  ∀ (i : Instr) (s t : State), exec i s = .next t →
    (∀ r, writesReg i r = false → t.reg r = s.reg r) ∧
    ((∀ x, i ≠ .storeRegs x ∧ i ≠ .ldB x) → t.mem = s.mem) ∧
    (i ≠ .cls → (∀ x y n, i ≠ .drw x y n) → t.video = s.video) ∧
    ((∀ a, i ≠ .call a) → t.stack = s.stack) ∧
    ((∀ a, i ≠ .call a) → i ≠ .ret → t.sp = s.sp) ∧
    ((∀ a, i ≠ .ldI a) → (∀ x, i ≠ .addI x ∧ i ≠ .ldF x) → t.I = s.I) ∧
    ((∀ x, i ≠ .setDT x) → t.DT = s.DT) ∧ ((∀ x, i ≠ .setST x) → t.ST = s.ST) ∧
    (writesPc i = false → t.pc = s.pc) ∧ (mayRaise i = false → t.fault = s.fault) ∧
    t.opcode = s.opcode ∧ t.keypad = s.keypad ∧ t.params = s.params ∧ t.rnd = s.rnd ∧ t.draws = s.draws ∧
    t.schedule = s.schedule

/-- "Each of these writes 0 or 1, never another value": V[15] after the six flag instructions, unless the instruction
faults, which only DRW can (10_state.md R21, R35). -/
def Obligations.FlagInstructionsLeaveZeroOrOne : Prop :=
  ∀ (i : Instr) (s t : State),
    (∃ x y n, i = .addReg x y ∨ i = .subReg x y ∨ i = .subnReg x y ∨ i = .shr x ∨ i = .shl x ∨ i = .drw x y n) →
    s.fault = none → exec i s = .next t → t.fault = none → t.reg 15 = 0 ∨ t.reg 15 = 1

/-- The rnd byte is read by RND alone: any other instruction does the same whatever the byte
(40_cycle_and_dispatch.md R123). -/
def Obligations.OnlyRndReadsTheRandomByte : Prop :=
  ∀ (i : Instr) (s t : State) (r : Byte), (∀ x kk, i ≠ .rnd x kk) → exec i s = .next t →
    exec i { s with rnd := r } = .next { t with rnd := r }

/-- A run that has ended stays: a STEP changes only `opcode`, which it rewrites with the word at pc, and a further STEP
writes the same word again (70_reset_and_hazards.md R264). -/
def Obligations.EndedRunStaysPut : Prop :=
  ∀ (s b : State) (rnd : Byte), TakesStep s b rnd → s.ended = true →
    ∃ w, s.fetchWord = .ok w ∧ step s = .next { b with rnd := rnd, opcode := w } ∧
      ({ b with rnd := rnd, opcode := w } : State).ended = true ∧
      ({ b with rnd := rnd, opcode := w } : State).fetchWord = .ok w

/-- A store is seen by the very next fetch of that address (20_memory.md R72), as the high byte at pc and as the low byte
at pc + 1 (R63): the registers of LD [I], Vx and the digits of LD B, Vx. -/
def Obligations.StoresAreSeenByTheNextFetch : Prop :=
  ∀ (s t : State) (x : Nibble) (a : Nat) (w : Word), Memory.wf s.params s.mem = true → s.fault = none →
    t.fault = none → t.fetchWord = .ok w →
    (∀ r : Nibble, r ≤ x → exec (.storeRegs x) s = .next t → s.ea .data (s.I.toNat + r.val) = .ok a →
      (s.ea .fetch s.pc.toNat = .ok a → highByte w = s.reg r) ∧
      (s.ea .fetch (s.pc.toNat + 1) = .ok a → lowByte w = s.reg r)) ∧
    (∀ r : Nat, r < 3 → exec (.ldB x) s = .next t → s.ea .data (s.I.toNat + r) = .ok a →
      (s.ea .fetch s.pc.toNat = .ok a → (highByte w).toNat = (s.reg x).toNat / 10 ^ (2 - r) % 10) ∧
      (s.ea .fetch (s.pc.toNat + 1) = .ok a → (lowByte w).toNat = (s.reg x).toNat / 10 ^ (2 - r) % 10))

/-! Control flow (41_control_flow.md). -/

/-- CLS (R140). -/
def Obligations.ClsTurnsAllPixelsOff : Prop :=
  Selects 0xF00F 0x0000 (fun _ => .cls) ∧
  ∀ s : State, ∃ t, exec .cls s = .next t ∧ (∀ y x, t.pixel y x = false) ∧ t = { s with video := t.video }

/-- RET (R141), both policies (the spec's decision D3, log 3). The slot read keeps its value, because only sp and pc are
written. -/
def Obligations.RetPopsThePc : Prop :=
  Selects 0xF00F 0x000E (fun _ => .ret) ∧
  ∀ s : State,
    (s.params.stackPolicy = .fault → s.sp.toNat = 0 → exec .ret s = .next { s with fault := some .stackUnderflow }) ∧
    (s.params.stackPolicy = .fault → 1 ≤ s.sp.toNat → s.sp.toNat ≤ 16 →
      ∃ t, exec .ret s = .next t ∧ t.sp.toNat = s.sp.toNat - 1 ∧
        (∀ k : Nibble, k.val = s.sp.toNat - 1 → t.pc = s.stack[k.val]) ∧ t = { s with sp := t.sp, pc := t.pc }) ∧
    (s.params.stackPolicy = .wrap → s.sp.toNat ≤ 15 →
      ∃ t, exec .ret s = .next t ∧ t.sp.toNat = (s.sp.toNat + 15) % 16 ∧
        (∀ k : Nibble, k.val = (s.sp.toNat + 15) % 16 → t.pc = s.stack[k.val]) ∧
        t = { s with sp := t.sp, pc := t.pc })

/-- JP nnn (R142). -/
def Obligations.JpLoadsThePc : Prop :=
  Selects 0xF000 0x1000 (fun w => .jp (nnnField w)) ∧
  ∀ (nnn : Addr) (s : State), ∃ t, exec (.jp nnn) s = .next t ∧ t.pc.toNat = nnn.toNat ∧ t = { s with pc := t.pc }

/-- CALL nnn (R143), both policies (the spec's decision D3, log 3): the advanced pc goes to the slot at sp. -/
def Obligations.CallPushesThePc : Prop :=
  Selects 0xF000 0x2000 (fun w => .call (nnnField w)) ∧
  ∀ (nnn : Addr) (s : State),
    (s.params.stackPolicy = .fault → s.sp.toNat = 16 →
      exec (.call nnn) s = .next { s with fault := some .stackOverflow }) ∧
    (s.sp.toNat ≤ 15 →
      ∃ t, exec (.call nnn) s = .next t ∧ t.pc.toNat = nnn.toNat ∧
        (s.params.stackPolicy = .fault → t.sp.toNat = s.sp.toNat + 1) ∧
        (s.params.stackPolicy = .wrap → t.sp.toNat = (s.sp.toNat + 1) % 16) ∧
        (∀ k : Nibble, t.stack[k.val] = if k.val = s.sp.toNat then s.pc else s.stack[k.val]) ∧
        t = { s with stack := t.stack, sp := t.sp, pc := t.pc })

/-- The model stops on a stack pointer that names no slot, a value no run reaches (10_state.md R25; log 5): CALL above
16, or above 15 under wrap; RET above 16 under fault. -/
def Obligations.StackPointerWithoutSlotStops : Prop :=
  ∀ (nnn : Addr) (s : State),
    (spMax s.params < s.sp.toNat → exec (.call nnn) s = .fault .stackPointerRange) ∧
    (s.params.stackPolicy = .fault → 16 < s.sp.toNat → exec .ret s = .fault .stackPointerRange)

/-- A RET after a CALL comes back to the instruction after the CALL, with sp as before (R141, R143), under both
policies. -/
def Obligations.ReturnComesBackAfterCall : Prop :=
  ∀ (nnn : Addr) (s t : State), s.Inv → s.fault = none → exec (.call nnn) s = .next t → t.fault = none →
    ∃ u, exec .ret t = .next u ∧ u.pc = s.pc ∧ u.sp = s.sp ∧ u.fault = none

/-- JP V0, nnn: always V[0], never reduced modulo 4096 (R144). -/
def Obligations.JpV0AddsRegisterZero : Prop :=
  Selects 0xF000 0xB000 (fun w => .jpV0 (nnnField w)) ∧
  ∀ (nnn : Addr) (s : State), ∃ t, exec (.jpV0 nnn) s = .next t ∧
    t.pc.toNat = nnn.toNat + (s.reg 0).toNat ∧ t = { s with pc := t.pc }

/-- NOP: a word that no row of the map matches changes nothing but opcode and pc (40_cycle_and_dispatch.md R124). -/
def Obligations.NopOnlyAdvancesThePc : Prop :=
  (∀ s : State, exec .nop s = .next s) ∧
  ∀ (s b : State) (rnd : Byte) (w : Word), TakesStep s b rnd → s.fault = none → s.fetchWord = .ok w →
    (∀ row ∈ opcodeMap, row.matchesWord w = false) →
    step s = .next { b with rnd := rnd, opcode := w, pc := s.pc + 2 }

/-! Conditional skips (42_conditional_skip.md). -/

/-- SE Vx, kk and SNE Vx, kk (R150, R151). -/
def Obligations.ImmediateSkipsCompare : Prop :=
  Selects 0xF000 0x3000 (fun w => .seImm (xField w) (kkField w)) ∧
  Selects 0xF000 0x4000 (fun w => .sneImm (xField w) (kkField w)) ∧
  ∀ (x : Nibble) (kk : Byte) (s : State),
    exec (.seImm x kk) s = .next (if s.reg x = kk then { s with pc := s.pc + 2 } else s) ∧
    exec (.sneImm x kk) s = .next (if s.reg x ≠ kk then { s with pc := s.pc + 2 } else s)

/-- SE Vx, Vy and SNE Vx, Vy (R152, R153). -/
def Obligations.RegisterSkipsCompare : Prop :=
  Selects 0xF000 0x5000 (fun w => .seReg (xField w) (yField w)) ∧
  Selects 0xF000 0x9000 (fun w => .sneReg (xField w) (yField w)) ∧
  ∀ (x y : Nibble) (s : State),
    exec (.seReg x y) s = .next (if s.reg x = s.reg y then { s with pc := s.pc + 2 } else s) ∧
    exec (.sneReg x y) s = .next (if s.reg x ≠ s.reg y then { s with pc := s.pc + 2 } else s)

/-! Register ALU (43_register_alu.md). -/

/-- LD Vx, kk and ADD Vx, kk: modulo 256, no flag, V[15] an ordinary destination (R160, R161). -/
def Obligations.ImmediateLoadAndAdd : Prop :=
  Selects 0xF000 0x6000 (fun w => .ldImm (xField w) (kkField w)) ∧
  Selects 0xF000 0x7000 (fun w => .addImm (xField w) (kkField w)) ∧
  ∀ (x : Nibble) (kk : Byte) (s : State),
    (∃ t, exec (.ldImm x kk) s = .next t ∧ t.reg x = kk ∧ (∀ r, r ≠ x → t.reg r = s.reg r) ∧
      t = { s with V := t.V }) ∧
    (∃ t, exec (.addImm x kk) s = .next t ∧ (t.reg x).toNat = ((s.reg x).toNat + kk.toNat) % 256 ∧
      (∀ r, r ≠ x → t.reg r = s.reg r) ∧ t = { s with V := t.V })

/-- LD Vx, Vy, OR, AND and XOR: no flag, V[15] unchanged unless it is x (R162, R163, R164, R165). -/
def Obligations.CopyAndBitwiseOperations : Prop :=
  Selects 0xF00F 0x8000 (fun w => .ldReg (xField w) (yField w)) ∧
  Selects 0xF00F 0x8001 (fun w => .orReg (xField w) (yField w)) ∧
  Selects 0xF00F 0x8002 (fun w => .andReg (xField w) (yField w)) ∧
  Selects 0xF00F 0x8003 (fun w => .xorReg (xField w) (yField w)) ∧
  ∀ (x y : Nibble) (s : State),
    (∃ t, exec (.ldReg x y) s = .next t ∧ t.reg x = s.reg y ∧ (∀ r, r ≠ x → t.reg r = s.reg r) ∧
      t = { s with V := t.V }) ∧
    (∃ t, exec (.orReg x y) s = .next t ∧
      (∀ j, (t.reg x).getLsbD j = ((s.reg x).getLsbD j || (s.reg y).getLsbD j)) ∧
      (∀ r, r ≠ x → t.reg r = s.reg r) ∧ t = { s with V := t.V }) ∧
    (∃ t, exec (.andReg x y) s = .next t ∧
      (∀ j, (t.reg x).getLsbD j = ((s.reg x).getLsbD j && (s.reg y).getLsbD j)) ∧
      (∀ r, r ≠ x → t.reg r = s.reg r) ∧ t = { s with V := t.V }) ∧
    (∃ t, exec (.xorReg x y) s = .next t ∧
      (∀ j, (t.reg x).getLsbD j = ((s.reg x).getLsbD j ^^ (s.reg y).getLsbD j)) ∧
      (∀ r, r ≠ x → t.reg r = s.reg r) ∧ t = { s with V := t.V })

/-- ADD Vx, Vy: the sum modulo 256, the carry of the 9-bit sum to V[15], which wins when x is 15 (R166; that the
flag wins is the spec's decision D8, log 11). -/
def Obligations.AddSetsCarry : Prop :=
  Selects 0xF00F 0x8004 (fun w => .addReg (xField w) (yField w)) ∧
  ∀ (x y : Nibble) (s : State), ∃ t, exec (.addReg x y) s = .next t ∧
    (x ≠ 15 → (t.reg x).toNat = ((s.reg x).toNat + (s.reg y).toNat) % 256) ∧
    t.reg 15 = (if (s.reg x).toNat + (s.reg y).toNat > 255 then 1 else 0) ∧
    (∀ r, r ≠ x → r ≠ 15 → t.reg r = s.reg r) ∧ t = { s with V := t.V }

/-- SUB and SUBN: the difference modulo 256, V[15] = 1 iff the minuend is strictly greater, and 0 when equal
(R167, R169; that the flag wins when x is 15 is the spec's decision D8, log 11). -/
def Obligations.SubtractionsSetStrictFlag : Prop :=
  Selects 0xF00F 0x8005 (fun w => .subReg (xField w) (yField w)) ∧
  Selects 0xF00F 0x8007 (fun w => .subnReg (xField w) (yField w)) ∧
  ∀ (x y : Nibble) (s : State),
    (∃ t, exec (.subReg x y) s = .next t ∧
      (x ≠ 15 → ((t.reg x).toNat : Int) = ((s.reg x).toNat - (s.reg y).toNat : Int) % 256) ∧
      t.reg 15 = (if (s.reg x).toNat > (s.reg y).toNat then 1 else 0) ∧
      (∀ r, r ≠ x → r ≠ 15 → t.reg r = s.reg r) ∧ t = { s with V := t.V }) ∧
    (∃ t, exec (.subnReg x y) s = .next t ∧
      (x ≠ 15 → ((t.reg x).toNat : Int) = ((s.reg y).toNat - (s.reg x).toNat : Int) % 256) ∧
      t.reg 15 = (if (s.reg y).toNat > (s.reg x).toNat then 1 else 0) ∧
      (∀ r, r ≠ x → r ≠ 15 → t.reg r = s.reg r) ∧ t = { s with V := t.V })

/-- SHR and SHL: by one bit, the bit shifted out to V[15], V[y] not read: the instruction has no y (R168, R170;
that the flag wins when x is 15 is the spec's decision D8, log 11). -/
def Obligations.ShiftsReportTheLostBit : Prop :=
  Selects 0xF00F 0x8006 (fun w => .shr (xField w)) ∧
  Selects 0xF00F 0x800E (fun w => .shl (xField w)) ∧
  ∀ (x : Nibble) (s : State),
    (∃ t, exec (.shr x) s = .next t ∧ (x ≠ 15 → (t.reg x).toNat = (s.reg x).toNat / 2) ∧
      (t.reg 15).toNat = (s.reg x).toNat % 2 ∧ (∀ r, r ≠ x → r ≠ 15 → t.reg r = s.reg r) ∧ t = { s with V := t.V }) ∧
    (∃ t, exec (.shl x) s = .next t ∧ (x ≠ 15 → (t.reg x).toNat = (s.reg x).toNat * 2 % 256) ∧
      (t.reg 15).toNat = (s.reg x).toNat / 128 ∧ (∀ r, r ≠ x → r ≠ 15 → t.reg r = s.reg r) ∧ t = { s with V := t.V })

/-! Memory and index (44_memory_index.md). -/

/-- LD I, nnn and ADD I, Vx: modulo 65536, no flag (R180, R181; the modulus is the spec's decision D15, log 19). -/
def Obligations.IndexLoadAndAdd : Prop :=
  Selects 0xF000 0xA000 (fun w => .ldI (nnnField w)) ∧
  Selects 0xF0FF 0xF01E (fun w => .addI (xField w)) ∧
  ∀ (nnn : Addr) (x : Nibble) (s : State),
    (∃ t, exec (.ldI nnn) s = .next t ∧ t.I.toNat = nnn.toNat ∧ t = { s with I := t.I }) ∧
    (∃ t, exec (.addI x) s = .next t ∧ t.I.toNat = (s.I.toNat + (s.reg x).toNat) % 65536 ∧ t = { s with I := t.I })

/-- LD F, Vx: the whole byte, no mask, no memory access (R182). -/
def Obligations.FontAddressIsBasePlusFiveTimes : Prop :=
  Selects 0xF0FF 0xF029 (fun w => .ldF (xField w)) ∧
  ∀ (x : Nibble) (s : State), ∃ t, exec (.ldF x) s = .next t ∧
    t.I.toNat = (s.params.fontBase.toNat + 5 * (s.reg x).toNat) % 65536 ∧ t = { s with I := t.I }

/-- LD [I], Vx: V[r] goes to EA_data(I + r) for r = 0 .. x, no other byte changes, I is unchanged; out of reach nothing is
stored and DataAddressRange is taken (R183). -/
def Obligations.RegisterBlockStores : Prop :=
  Selects 0xF0FF 0xF055 (fun w => .storeRegs (xField w)) ∧
  ∀ (x : Nibble) (s : State), Memory.wf s.params s.mem = true →
    (BlockInReach s (x.val + 1) → ∃ t, exec (.storeRegs x) s = .next t ∧
      (∀ (r : Nibble) (a : Nat), r ≤ x → s.ea .data (s.I.toNat + r.val) = .ok a → t.readByte a = s.reg r) ∧
      (∀ a, (∀ r : Nibble, r ≤ x → s.ea .data (s.I.toNat + r.val) ≠ .ok a) → t.readByte a = s.readByte a) ∧
      t = { s with mem := t.mem }) ∧
    (¬ BlockInReach s (x.val + 1) → exec (.storeRegs x) s = .next { s with fault := some .dataAddressRange })

/-- LD Vx, [I]: V[r] is the byte at EA_data(I + r) for r = 0 .. x, the other registers and everything else are unchanged;
out of reach no register is written and DataAddressRange is taken (R184). -/
def Obligations.RegisterBlockLoads : Prop :=
  Selects 0xF0FF 0xF065 (fun w => .loadRegs (xField w)) ∧
  ∀ (x : Nibble) (s : State),
    (BlockInReach s (x.val + 1) → ∃ t, exec (.loadRegs x) s = .next t ∧
      (∀ (r : Nibble) (a : Nat), r ≤ x → s.ea .data (s.I.toNat + r.val) = .ok a → t.reg r = s.readByte a) ∧
      (∀ r : Nibble, x < r → t.reg r = s.reg r) ∧ t = { s with V := t.V }) ∧
    (¬ BlockInReach s (x.val + 1) → exec (.loadRegs x) s = .next { s with fault := some .dataAddressRange })

/-- LD B, Vx: hundreds, tens and ones at I, I + 1, I + 2, no other byte changes, I is unchanged; out of reach nothing is
stored and DataAddressRange is taken (R185). -/
def Obligations.BcdStoresThreeDigits : Prop :=
  Selects 0xF0FF 0xF033 (fun w => .ldB (xField w)) ∧
  ∀ (x : Nibble) (s : State), Memory.wf s.params s.mem = true →
    (BlockInReach s 3 → ∃ t, exec (.ldB x) s = .next t ∧
      (∀ a, s.ea .data s.I.toNat = .ok a → (t.readByte a).toNat = (s.reg x).toNat / 100) ∧
      (∀ a, s.ea .data (s.I.toNat + 1) = .ok a → (t.readByte a).toNat = (s.reg x).toNat / 10 % 10) ∧
      (∀ a, s.ea .data (s.I.toNat + 2) = .ok a → (t.readByte a).toNat = (s.reg x).toNat % 10) ∧
      (∀ a, (∀ r, r < 3 → s.ea .data (s.I.toNat + r) ≠ .ok a) → t.readByte a = s.readByte a) ∧
      t = { s with mem := t.mem }) ∧
    (¬ BlockInReach s 3 → exec (.ldB x) s = .next { s with fault := some .dataAddressRange })

/-! Random, input, timers (45_random.md, 46_input.md, 47_timers.md). -/

/-- RND Vx, kk: the byte that came with the STEP, masked, for every value of that byte (R190). -/
def Obligations.RndMasksTheRandomByte : Prop :=
  Selects 0xF000 0xC000 (fun w => .rnd (xField w) (kkField w)) ∧
  ∀ (x : Nibble) (kk : Byte) (s : State), ∃ t, exec (.rnd x kk) s = .next t ∧
    (∀ j, (t.reg x).getLsbD j = (s.rnd.getLsbD j && kk.getLsbD j)) ∧
    (∀ r, r ≠ x → t.reg r = s.reg r) ∧ t = { s with V := t.V }

/-- SKP Vx and SKNP Vx: the key V[x], or under OOB_POLICY = wrap V[x] mod 16; above 15 under `fault` KeyIndexRange is
taken and nothing else changes (R195, R196, R198). -/
def Obligations.KeySkipsReadTheKeypad : Prop :=
  Selects 0xF00F 0xE00E (fun w => .skp (xField w)) ∧
  Selects 0xF00F 0xE001 (fun w => .sknp (xField w)) ∧
  ∀ (x : Nibble) (s : State),
    (∀ k : Nibble, (s.reg x).toNat ≤ 15 ∨ s.params.oobPolicy = .wrap → k.val = (s.reg x).toNat % 16 →
      exec (.skp x) s = .next (if s.key k = true then { s with pc := s.pc + 2 } else s) ∧
      exec (.sknp x) s = .next (if s.key k = false then { s with pc := s.pc + 2 } else s)) ∧
    ((s.reg x).toNat > 15 → s.params.oobPolicy = .fault →
      exec (.skp x) s = .next { s with fault := some .keyIndexRange } ∧
      exec (.sknp x) s = .next { s with fault := some .keyIndexRange })

/-- LD Vx, K: with no key pressed pc goes back by 2, else the smallest pressed key is stored (R197; the smallest
is the spec's decision D10, log 13). -/
def Obligations.KeyWaitStoresLowestKey : Prop :=
  Selects 0xF0FF 0xF00A (fun w => .ldKey (xField w)) ∧
  ∀ (x : Nibble) (s : State),
    ((∀ k, s.key k = false) → exec (.ldKey x) s = .next { s with pc := s.pc - 2 }) ∧
    (∀ k : Nibble, s.key k = true → (∀ j, j < k → s.key j = false) →
      ∃ t, exec (.ldKey x) s = .next t ∧ (t.reg x).toNat = k.val ∧ (∀ r, r ≠ x → t.reg r = s.reg r) ∧
        t = { s with V := t.V })

/-- LD Vx, DT, LD DT, Vx and LD ST, Vx (R205, R206, R207). -/
def Obligations.TimerLoads : Prop :=
  Selects 0xF0FF 0xF007 (fun w => .getDT (xField w)) ∧
  Selects 0xF0FF 0xF015 (fun w => .setDT (xField w)) ∧
  Selects 0xF0FF 0xF018 (fun w => .setST (xField w)) ∧
  ∀ (x : Nibble) (s : State),
    (∃ t, exec (.getDT x) s = .next t ∧ t.reg x = s.DT ∧ (∀ r, r ≠ x → t.reg r = s.reg r) ∧ t = { s with V := t.V }) ∧
    exec (.setDT x) s = .next { s with DT := s.reg x } ∧
    (∃ t, exec (.setST x) s = .next t ∧ t = { s with ST := s.reg x } ∧ (t.soundOn = true ↔ (s.reg x).toNat ≠ 0))

/-! Draw (48_draw.md). -/

/-- DRW Vx, Vy, n: exactly the pixels under set sprite bits flip, V[15] is 1 iff one of them was on, and nothing else
changes; out of reach neither V[15] nor video is written and DataAddressRange is taken. The origin is read before V[15]
is written (R210, R211, R212; the last is the spec's decision D9, log 12). -/
def Obligations.DrawFlipsCoveredPixels : Prop :=
  Selects 0xF000 0xD000 (fun w => .drw (xField w) (yField w) (nField w)) ∧
  ∀ (x y n : Nibble) (s : State),
    let covers := SpriteCovers s ((s.reg x).toNat % 64) ((s.reg y).toNat % 32) n.val
    (BlockInReach s n.val → ∃ t, exec (.drw x y n) s = .next t ∧
      (∀ py px, covers py px → t.pixel py px = !s.pixel py px) ∧
      (∀ py px, ¬ covers py px → t.pixel py px = s.pixel py px) ∧
      ((∃ py px, covers py px ∧ s.pixel py px = true) → t.reg 15 = 1) ∧
      (¬ (∃ py px, covers py px ∧ s.pixel py px = true) → t.reg 15 = 0) ∧
      (∀ r, r ≠ 15 → t.reg r = s.reg r) ∧ t = { s with V := t.V, video := t.video }) ∧
    (¬ BlockInReach s n.val → exec (.drw x y n) s = .next { s with fault := some .dataAddressRange })

/-- Degenerate sprites: n = 0 draws nothing whatever I is and clears V[15]; a sprite of zero bytes changes no pixel and
clears V[15] (R213). -/
def Obligations.DegenerateSpritesDrawNothing : Prop :=
  ∀ (x y n : Nibble) (s : State),
    (∃ t, exec (.drw x y 0) s = .next t ∧ t.video = s.video ∧ t.reg 15 = 0 ∧ t = { s with V := t.V }) ∧
    (BlockInReach s n.val → (∀ r a, r < n.val → s.ea .data (s.I.toNat + r) = .ok a → s.readByte a = 0) →
      ∃ t, exec (.drw x y n) s = .next t ∧ t.video = s.video ∧ t.reg 15 = 0 ∧ t = { s with V := t.V })

/-- Drawing the same sprite twice at the same origin from an all-off screen (the first draw writes V[15], so where x or y
is 15 the origin may differ, and the statement asks that it does not): the first draw reports no collision, the second
turns every pixel off again and reports one iff the sprite has a set bit (R212, the source's testable property;
95_test_vectors.md S7). -/
def Obligations.DrawingTwiceErasesTheSprite : Prop :=
  ∀ (x y n : Nibble) (s t u : State), BlockInReach s n.val → (∀ py px, s.pixel py px = false) →
    exec (.drw x y n) s = .next t →
    (t.reg x).toNat % 64 = (s.reg x).toNat % 64 → (t.reg y).toNat % 32 = (s.reg y).toNat % 32 →
    exec (.drw x y n) t = .next u →
    t.reg 15 = 0 ∧ u.video = s.video ∧
    (u.reg 15 = 1 ↔ ∃ r a, r < n.val ∧ s.ea .data (s.I.toNat + r) = .ok a ∧ s.readByte a ≠ 0)
end

