-- ==== Sys2Proof/Laws/Decode.lean ====
section
/-! SUPPORT. The fields as numbers, the masks of the opcode map as numbers, and what each decode level answers. -/

namespace Sys2Proof

/-! Fields (30_encoding.md R91). -/

theorem tField_val (w : Word) : (tField w).val = w.toNat / 4096 := by
  have := w.isLt
  simp only [tField, Fin.ofNat, Nat.shiftRight_eq_div_pow]; omega

theorem xField_val (w : Word) : (xField w).val = w.toNat / 256 % 16 := by
  simp [xField, Fin.ofNat, Nat.shiftRight_eq_div_pow]

theorem yField_val (w : Word) : (yField w).val = w.toNat / 16 % 16 := by
  simp [yField, Fin.ofNat, Nat.shiftRight_eq_div_pow]

theorem nField_val (w : Word) : (nField w).val = w.toNat % 16 := rfl

theorem kkField_toNat (w : Word) : (kkField w).toNat = w.toNat % 256 := by
  simp [kkField]

theorem nnnField_toNat (w : Word) : (nnnField w).toNat = w.toNat % 4096 := by
  simp [nnnField]

/-! Masks (30_encoding.md R100, R102). -/

theorem land_F000 {n : Nat} (h : n < 65536) : n &&& 0xF000 = n / 4096 * 4096 := by
  have h1 : BitVec.ofNat 16 n &&& 0xF000#16 = BitVec.ofNat 16 n >>> 12 <<< 12 := by
    ext i hi
    interval_cases i <;> simp
  have h2 := congrArg BitVec.toNat h1
  simp [Nat.shiftRight_eq_div_pow, Nat.shiftLeft_eq, Nat.mod_eq_of_lt h] at h2
  omega

theorem land_FFF0 {n : Nat} (h : n < 65536) : n &&& 0xFFF0 = n / 16 * 16 := by
  have h1 : BitVec.ofNat 16 n &&& 0xFFF0#16 = BitVec.ofNat 16 n >>> 4 <<< 4 := by
    ext i hi
    interval_cases i <;> simp
  have h2 := congrArg BitVec.toNat h1
  simp [Nat.shiftRight_eq_div_pow, Nat.shiftLeft_eq, Nat.mod_eq_of_lt h] at h2
  omega

theorem land_FF00 {n : Nat} (h : n < 65536) : n &&& 0xFF00 = n / 256 * 256 := by
  have h1 : BitVec.ofNat 16 n &&& 0xFF00#16 = BitVec.ofNat 16 n >>> 8 <<< 8 := by
    ext i hi
    interval_cases i <;> simp
  have h2 := congrArg BitVec.toNat h1
  simp [Nat.shiftRight_eq_div_pow, Nat.shiftLeft_eq, Nat.mod_eq_of_lt h] at h2
  omega

theorem land_F00F {n : Nat} (h : n < 65536) : n &&& 0xF00F = n / 4096 * 4096 + n % 16 := by
  have h0 : n &&& 0xF00F = (n &&& 0xF000) ||| (n &&& 0xF) := Nat.and_or_distrib_left n 0xF000 0xF
  have h1 := Nat.two_pow_add_eq_or_of_lt (i := 12) (b := n % 16) (by omega) (n / 4096)
  have h2 : n &&& 0xF = n % 16 := Nat.and_two_pow_sub_one_eq_mod n 4
  rw [h0, land_F000 h, h2, show n / 4096 * 4096 = 2 ^ 12 * (n / 4096) by omega, h1]

theorem land_FF0F {n : Nat} (h : n < 65536) : n &&& 0xFF0F = n / 256 * 256 + n % 16 := by
  have h0 : n &&& 0xFF0F = (n &&& 0xFF00) ||| (n &&& 0xF) := Nat.and_or_distrib_left n 0xFF00 0xF
  have h1 := Nat.two_pow_add_eq_or_of_lt (i := 8) (b := n % 16) (by omega) (n / 256)
  have h2 : n &&& 0xF = n % 16 := Nat.and_two_pow_sub_one_eq_mod n 4
  rw [h0, land_FF00 h, h2, show n / 256 * 256 = 2 ^ 8 * (n / 256) by omega, h1]

theorem land_F0FF {n : Nat} (h : n < 65536) : n &&& 0xF0FF = n / 4096 * 4096 + n % 256 := by
  have h0 : n &&& 0xF0FF = (n &&& 0xF000) ||| (n &&& 0xFF) := Nat.and_or_distrib_left n 0xF000 0xFF
  have h1 := Nat.two_pow_add_eq_or_of_lt (i := 12) (b := n % 256) (by omega) (n / 4096)
  have h2 : n &&& 0xFF = n % 256 := Nat.and_two_pow_sub_one_eq_mod n 8
  rw [h0, land_F000 h, h2, show n / 4096 * 4096 = 2 ^ 12 * (n / 4096) by omega, h1]

/-- A mask and its pattern as numbers. -/
theorem and_eq_iff_toNat (w mask pattern : Word) :
    w &&& mask = pattern ↔ w.toNat &&& mask.toNat = pattern.toNat := by
  rw [← BitVec.toNat_inj, BitVec.toNat_and]

/-! What the decode answers. -/

/-- The row number of a word, from its top nibble, its lowest nibble and its lowest byte. -/
def rowOf (t n kk : Nat) : Nat :=
  match t with
  | 0x0 => (match n with | 0x0 => 1 | 0xE => 2 | _ => 35)
  | 0x1 => 3 | 0x2 => 4 | 0x3 => 6 | 0x4 => 7 | 0x5 => 8 | 0x6 => 10 | 0x7 => 11
  | 0x8 => (match n with | 0x0 => 12 | 0x1 => 13 | 0x2 => 14 | 0x3 => 15 | 0x4 => 16 | 0x5 => 17
                         | 0x6 => 18 | 0x7 => 19 | 0xE => 20 | _ => 35)
  | 0x9 => 9 | 0xA => 21 | 0xB => 5 | 0xC => 27 | 0xD => 34
  | 0xE => (match n with | 0x1 => 29 | 0xE => 28 | _ => 35)
  | _ => (match kk with | 0x07 => 31 | 0x0A => 30 | 0x15 => 32 | 0x18 => 33 | 0x1E => 22 | 0x29 => 23
                        | 0x33 => 26 | 0x55 => 24 | 0x65 => 25 | _ => 35)

/-- The two-level decode answers the row its dispatch indices select (30_encoding.md R94 to R98). -/
theorem decodeWord_rowNumber (w : Word) :
    (decodeWord w).rowNumber = rowOf (w.toNat / 4096) (w.toNat % 16) (w.toNat % 256) := by
  have ht : w.toNat / 4096 < 16 := by have := w.isLt; omega
  have hn : w.toNat % 16 < 16 := by omega
  simp only [decodeWord, decodeFamily0, decodeFamily8, decodeFamilyE, decodeFamilyF, tField_val, nField_val,
    kkField_toNat]
  generalize w.toNat / 4096 = t at ht ⊢
  generalize w.toNat % 16 = n at hn ⊢
  generalize w.toNat % 256 = kk
  interval_cases t
  on_goal 16 => (simp only [rowOf]; split <;> first | rfl | simp_all [Instr.rowNumber])
  all_goals first | rfl | (interval_cases n <;> rfl)

end Sys2Proof
end

