-- ==== Sys2Proof/Laws/State.lean ====
section
/-! SUPPORT. One lemma per field per update: what each named update of State leaves alone, and what it writes. Each
theorem is a conjunction of such lemmas, which simp uses one by one. -/

namespace Sys2Proof.Machine

variable (s : State)

@[simp] theorem State.setReg_keeps (x : Nibble) (b : Byte) :
    (s.setReg x b).I = s.I ∧ (s.setReg x b).pc = s.pc ∧ (s.setReg x b).sp = s.sp ∧
    (s.setReg x b).stack = s.stack ∧ (s.setReg x b).DT = s.DT ∧ (s.setReg x b).ST = s.ST ∧
    (s.setReg x b).opcode = s.opcode ∧ (s.setReg x b).mem = s.mem ∧ (s.setReg x b).video = s.video ∧
    (s.setReg x b).keypad = s.keypad ∧ (s.setReg x b).fault = s.fault ∧ (s.setReg x b).params = s.params ∧
    (s.setReg x b).rnd = s.rnd ∧ (s.setReg x b).draws = s.draws ∧ (s.setReg x b).schedule = s.schedule :=
  ⟨rfl, rfl, rfl, rfl, rfl, rfl, rfl, rfl, rfl, rfl, rfl, rfl, rfl, rfl, rfl⟩

@[simp] theorem State.nextPc_keeps :
    (s.nextPc).V = s.V ∧ (s.nextPc).I = s.I ∧ (s.nextPc).sp = s.sp ∧ (s.nextPc).stack = s.stack ∧
    (s.nextPc).DT = s.DT ∧ (s.nextPc).ST = s.ST ∧ (s.nextPc).opcode = s.opcode ∧ (s.nextPc).mem = s.mem ∧
    (s.nextPc).video = s.video ∧ (s.nextPc).keypad = s.keypad ∧ (s.nextPc).fault = s.fault ∧
    (s.nextPc).params = s.params ∧ (s.nextPc).rnd = s.rnd ∧ (s.nextPc).draws = s.draws ∧
    (s.nextPc).schedule = s.schedule :=
  ⟨rfl, rfl, rfl, rfl, rfl, rfl, rfl, rfl, rfl, rfl, rfl, rfl, rfl, rfl, rfl⟩

@[simp] theorem State.rewindPc_keeps :
    (s.rewindPc).V = s.V ∧ (s.rewindPc).I = s.I ∧ (s.rewindPc).sp = s.sp ∧ (s.rewindPc).stack = s.stack ∧
    (s.rewindPc).DT = s.DT ∧ (s.rewindPc).ST = s.ST ∧ (s.rewindPc).opcode = s.opcode ∧
    (s.rewindPc).mem = s.mem ∧ (s.rewindPc).video = s.video ∧ (s.rewindPc).keypad = s.keypad ∧
    (s.rewindPc).fault = s.fault ∧ (s.rewindPc).params = s.params ∧ (s.rewindPc).rnd = s.rnd ∧
    (s.rewindPc).draws = s.draws ∧ (s.rewindPc).schedule = s.schedule :=
  ⟨rfl, rfl, rfl, rfl, rfl, rfl, rfl, rfl, rfl, rfl, rfl, rfl, rfl, rfl, rfl⟩

@[simp] theorem State.writeByte_keeps (a : Nat) (v : Byte) :
    (s.writeByte a v).V = s.V ∧ (s.writeByte a v).I = s.I ∧ (s.writeByte a v).pc = s.pc ∧
    (s.writeByte a v).sp = s.sp ∧ (s.writeByte a v).stack = s.stack ∧ (s.writeByte a v).DT = s.DT ∧
    (s.writeByte a v).ST = s.ST ∧ (s.writeByte a v).opcode = s.opcode ∧ (s.writeByte a v).video = s.video ∧
    (s.writeByte a v).keypad = s.keypad ∧ (s.writeByte a v).fault = s.fault ∧
    (s.writeByte a v).params = s.params ∧ (s.writeByte a v).rnd = s.rnd ∧ (s.writeByte a v).draws = s.draws ∧
    (s.writeByte a v).schedule = s.schedule :=
  ⟨rfl, rfl, rfl, rfl, rfl, rfl, rfl, rfl, rfl, rfl, rfl, rfl, rfl, rfl, rfl⟩

@[simp] theorem State.writeWithFlag_keeps (x : Nibble) (r f : Byte) :
    (s.writeWithFlag x r f).I = s.I ∧ (s.writeWithFlag x r f).pc = s.pc ∧ (s.writeWithFlag x r f).sp = s.sp ∧
    (s.writeWithFlag x r f).stack = s.stack ∧ (s.writeWithFlag x r f).DT = s.DT ∧
    (s.writeWithFlag x r f).ST = s.ST ∧ (s.writeWithFlag x r f).opcode = s.opcode ∧
    (s.writeWithFlag x r f).mem = s.mem ∧ (s.writeWithFlag x r f).video = s.video ∧
    (s.writeWithFlag x r f).keypad = s.keypad ∧ (s.writeWithFlag x r f).fault = s.fault ∧
    (s.writeWithFlag x r f).params = s.params ∧ (s.writeWithFlag x r f).rnd = s.rnd ∧
    (s.writeWithFlag x r f).draws = s.draws ∧ (s.writeWithFlag x r f).schedule = s.schedule :=
  ⟨rfl, rfl, rfl, rfl, rfl, rfl, rfl, rfl, rfl, rfl, rfl, rfl, rfl, rfl, rfl⟩

@[simp] theorem State.pushPc_keeps (k : Nibble) :
    (s.pushPc k).V = s.V ∧ (s.pushPc k).I = s.I ∧ (s.pushPc k).pc = s.pc ∧ (s.pushPc k).DT = s.DT ∧
    (s.pushPc k).ST = s.ST ∧ (s.pushPc k).opcode = s.opcode ∧ (s.pushPc k).mem = s.mem ∧
    (s.pushPc k).video = s.video ∧ (s.pushPc k).keypad = s.keypad ∧ (s.pushPc k).fault = s.fault ∧
    (s.pushPc k).params = s.params ∧ (s.pushPc k).rnd = s.rnd ∧ (s.pushPc k).draws = s.draws ∧
    (s.pushPc k).schedule = s.schedule :=
  ⟨rfl, rfl, rfl, rfl, rfl, rfl, rfl, rfl, rfl, rfl, rfl, rfl, rfl, rfl⟩

@[simp] theorem State.popPc_keeps (k : Nibble) :
    (s.popPc k).V = s.V ∧ (s.popPc k).I = s.I ∧ (s.popPc k).stack = s.stack ∧ (s.popPc k).DT = s.DT ∧
    (s.popPc k).ST = s.ST ∧ (s.popPc k).opcode = s.opcode ∧ (s.popPc k).mem = s.mem ∧
    (s.popPc k).video = s.video ∧ (s.popPc k).keypad = s.keypad ∧ (s.popPc k).fault = s.fault ∧
    (s.popPc k).params = s.params ∧ (s.popPc k).rnd = s.rnd ∧ (s.popPc k).draws = s.draws ∧
    (s.popPc k).schedule = s.schedule :=
  ⟨rfl, rfl, rfl, rfl, rfl, rfl, rfl, rfl, rfl, rfl, rfl, rfl, rfl, rfl⟩

@[simp] theorem State.commitFetch_keeps (b : Byte) (w : Word) :
    (s.commitFetch b w).V = s.V ∧ (s.commitFetch b w).I = s.I ∧ (s.commitFetch b w).sp = s.sp ∧
    (s.commitFetch b w).stack = s.stack ∧ (s.commitFetch b w).DT = s.DT ∧ (s.commitFetch b w).ST = s.ST ∧
    (s.commitFetch b w).mem = s.mem ∧ (s.commitFetch b w).video = s.video ∧
    (s.commitFetch b w).keypad = s.keypad ∧ (s.commitFetch b w).fault = s.fault ∧
    (s.commitFetch b w).params = s.params ∧ (s.commitFetch b w).draws = s.draws ∧
    (s.commitFetch b w).schedule = s.schedule :=
  ⟨rfl, rfl, rfl, rfl, rfl, rfl, rfl, rfl, rfl, rfl, rfl, rfl, rfl⟩

@[simp] theorem State.tick_keeps :
    (s.tick).V = s.V ∧ (s.tick).I = s.I ∧ (s.tick).pc = s.pc ∧ (s.tick).sp = s.sp ∧ (s.tick).stack = s.stack ∧
    (s.tick).opcode = s.opcode ∧ (s.tick).mem = s.mem ∧ (s.tick).video = s.video ∧ (s.tick).keypad = s.keypad ∧
    (s.tick).fault = s.fault ∧ (s.tick).params = s.params ∧ (s.tick).rnd = s.rnd ∧ (s.tick).draws = s.draws ∧
    (s.tick).schedule = s.schedule :=
  ⟨rfl, rfl, rfl, rfl, rfl, rfl, rfl, rfl, rfl, rfl, rfl, rfl, rfl, rfl⟩

@[simp] theorem State.keySet_keeps (k : Nibble) (b : Bool) :
    (s.keySet k b).V = s.V ∧ (s.keySet k b).I = s.I ∧ (s.keySet k b).pc = s.pc ∧ (s.keySet k b).sp = s.sp ∧
    (s.keySet k b).stack = s.stack ∧ (s.keySet k b).DT = s.DT ∧ (s.keySet k b).ST = s.ST ∧
    (s.keySet k b).opcode = s.opcode ∧ (s.keySet k b).mem = s.mem ∧ (s.keySet k b).video = s.video ∧
    (s.keySet k b).fault = s.fault ∧ (s.keySet k b).params = s.params ∧ (s.keySet k b).rnd = s.rnd ∧
    (s.keySet k b).draws = s.draws ∧ (s.keySet k b).schedule = s.schedule :=
  ⟨rfl, rfl, rfl, rfl, rfl, rfl, rfl, rfl, rfl, rfl, rfl, rfl, rfl, rfl, rfl⟩

@[simp] theorem State.skipIf_keeps (c : Bool) :
    (s.skipIf c).V = s.V ∧ (s.skipIf c).I = s.I ∧ (s.skipIf c).sp = s.sp ∧ (s.skipIf c).stack = s.stack ∧
    (s.skipIf c).DT = s.DT ∧ (s.skipIf c).ST = s.ST ∧ (s.skipIf c).opcode = s.opcode ∧
    (s.skipIf c).mem = s.mem ∧ (s.skipIf c).video = s.video ∧ (s.skipIf c).keypad = s.keypad ∧
    (s.skipIf c).fault = s.fault ∧ (s.skipIf c).params = s.params ∧ (s.skipIf c).rnd = s.rnd ∧
    (s.skipIf c).draws = s.draws ∧ (s.skipIf c).schedule = s.schedule := by
  cases c <;> simp [State.skipIf]

/-- Several stores change memory and nothing else. -/
@[simp] theorem State.storeBytes_keeps (cells : List Host.Cell) :
    (s.storeBytes cells).V = s.V ∧ (s.storeBytes cells).I = s.I ∧ (s.storeBytes cells).pc = s.pc ∧
    (s.storeBytes cells).sp = s.sp ∧ (s.storeBytes cells).stack = s.stack ∧ (s.storeBytes cells).DT = s.DT ∧
    (s.storeBytes cells).ST = s.ST ∧ (s.storeBytes cells).opcode = s.opcode ∧
    (s.storeBytes cells).video = s.video ∧ (s.storeBytes cells).keypad = s.keypad ∧
    (s.storeBytes cells).fault = s.fault ∧ (s.storeBytes cells).params = s.params ∧
    (s.storeBytes cells).rnd = s.rnd ∧ (s.storeBytes cells).draws = s.draws ∧
    (s.storeBytes cells).schedule = s.schedule := by
  induction cells generalizing s with
  | nil => simp [State.storeBytes]
  | cons c rest ih => simp [State.storeBytes, ih]

/-- A block load changes the general registers and nothing else. -/
@[simp] theorem State.setRegsFrom_keeps (k : Nat) (bs : List Byte) :
    (s.setRegsFrom k bs).I = s.I ∧ (s.setRegsFrom k bs).pc = s.pc ∧ (s.setRegsFrom k bs).sp = s.sp ∧
    (s.setRegsFrom k bs).stack = s.stack ∧ (s.setRegsFrom k bs).DT = s.DT ∧ (s.setRegsFrom k bs).ST = s.ST ∧
    (s.setRegsFrom k bs).opcode = s.opcode ∧ (s.setRegsFrom k bs).mem = s.mem ∧
    (s.setRegsFrom k bs).video = s.video ∧ (s.setRegsFrom k bs).keypad = s.keypad ∧
    (s.setRegsFrom k bs).fault = s.fault ∧ (s.setRegsFrom k bs).params = s.params ∧
    (s.setRegsFrom k bs).rnd = s.rnd ∧ (s.setRegsFrom k bs).draws = s.draws ∧
    (s.setRegsFrom k bs).schedule = s.schedule := by
  induction bs generalizing s k with
  | nil => simp [State.setRegsFrom]
  | cons b rest ih => simp [State.setRegsFrom, ih]

/-! What the updates write. -/

@[simp] theorem State.nextPc_pc : s.nextPc.pc = s.pc + 2 := rfl
@[simp] theorem State.rewindPc_pc : s.rewindPc.pc = s.pc - 2 := rfl
@[simp] theorem State.writeByte_mem (a : Nat) (v : Byte) :
    (s.writeByte a v).mem = Memory.write s.params s.mem a v := rfl
@[simp] theorem State.pushPc_sp (k : Nibble) : (s.pushPc k).sp = s.spAfterPush k := rfl
@[simp] theorem State.pushPc_stack (k : Nibble) : (s.pushPc k).stack = s.stack.set k.val s.pc k.isLt := rfl
@[simp] theorem State.popPc_sp (k : Nibble) : (s.popPc k).sp = BitVec.ofNat 5 k.val := rfl
@[simp] theorem State.popPc_pc (k : Nibble) : (s.popPc k).pc = s.stack[k.val] := rfl
@[simp] theorem State.commitFetch_pc (b : Byte) (w : Word) : (s.commitFetch b w).pc = s.pc + 2 := rfl
@[simp] theorem State.commitFetch_opcode (b : Byte) (w : Word) : (s.commitFetch b w).opcode = w := rfl
@[simp] theorem State.commitFetch_rnd (b : Byte) (w : Word) : (s.commitFetch b w).rnd = b := rfl
@[simp] theorem State.tick_DT : s.tick.DT = countDown s.DT := rfl
@[simp] theorem State.tick_ST : s.tick.ST = countDown s.ST := rfl
@[simp] theorem State.keySet_keypad (k : Nibble) (b : Bool) :
    (s.keySet k b).keypad = s.keypad.set k.val b k.isLt := rfl

theorem State.skipIf_pc (c : Bool) : (s.skipIf c).pc = if c then s.pc + 2 else s.pc := by
  cases c <;> rfl

/-- A register after a register write. -/
@[simp] theorem State.reg_setReg (x r : Nibble) (b : Byte) :
    (s.setReg x b).reg r = if r = x then b else s.reg r := by
  simp only [State.reg, State.setReg, Vector.getElem_set, Fin.ext_iff, eq_comm]

/-- A register after a result and its flag: the flag wins (43_register_alu.md R171). -/
@[simp] theorem State.reg_writeWithFlag (x r : Nibble) (res f : Byte) :
    (s.writeWithFlag x res f).reg r = if r = flagReg then f else if r = x then res else s.reg r := by
  simp [State.writeWithFlag]

/-- Registers are read from V alone. -/
theorem State.reg_of_V (t : State) (h : t.V = s.V) (r : Nibble) : t.reg r = s.reg r := by
  simp [State.reg, h]

/-- Two states with the same registers hold the same V. -/
theorem State.V_ext (t : State) (h : ∀ r, t.reg r = s.reg r) : t.V = s.V := by
  refine Vector.ext fun i hi => ?_
  simpa [State.reg] using h ⟨i, hi⟩

/-- A written pixel and the others. -/
theorem Video.get_flip (v : Video) (y y' : Fin 32) (x x' : Fin 64) :
    Video.get (Video.flip v y x) y' x' = if y' = y ∧ x' = x then !Video.get v y x else Video.get v y' x' := by
  simp only [Video.get, Video.flip, Vector.getElem_set, Fin.ext_iff]
  by_cases hy : y.val = y'.val
  · by_cases hx : x.val = x'.val
    · simp [hy, hx]
    · simp [hy, hx, Ne.symm hx]
  · simp [hy, Ne.symm hy]

/-- Two buffers with the same pixels are equal. -/
theorem Video.ext_get (v w : Video) (h : ∀ y x, Video.get v y x = Video.get w y x) : v = w := by
  refine Vector.ext fun i hi => Vector.ext fun j hj => ?_
  simpa [Video.get] using h ⟨i, hi⟩ ⟨j, hj⟩

@[simp] theorem Video.get_clear (y : Fin 32) (x : Fin 64) : Video.get Video.clear y x = false := by
  simp [Video.get, Video.clear]

end Sys2Proof.Machine
end

