-- ==== Sys2Proof/Laws/Memory.lean ====
section
/-! SUPPORT. The laws of memory: a read after a write, the canonical form is kept, equal memories are equal lists. -/

namespace Sys2Proof.Machine

variable {p : Params}

/-- In a canonical list no address below its start is listed. -/
theorem Memory.find_of_wfFrom {lo a : Nat} {m : Memory} (h : Memory.wfFrom p lo m = true) (ha : a < lo) :
    Memory.find a m = none := by
  induction m generalizing lo with
  | nil => rfl
  | cons e m ih =>
    simp only [Memory.wfFrom, Bool.and_eq_true, decide_eq_true_eq] at h
    obtain ⟨⟨⟨hlo, -⟩, -⟩, hm⟩ := h
    have hne : a ≠ e.1 := by omega
    simp [Memory.find, hne, ih hm (by omega)]

/-- A canonical list is canonical from any earlier address on. -/
theorem Memory.wfFrom_mono {lo lo' : Nat} {m : Memory} (h : Memory.wfFrom p lo m = true) (hl : lo' ≤ lo) :
    Memory.wfFrom p lo' m = true := by
  cases m with
  | nil => rfl
  | cons e m =>
    simp only [Memory.wfFrom, Bool.and_eq_true, decide_eq_true_eq] at h ⊢
    exact ⟨⟨⟨by omega, h.1.1.2⟩, h.1.2⟩, h.2⟩

/-- A listed byte of a canonical list is not the byte an unlisted address reads as. -/
theorem Memory.find_ne_reset {lo a : Nat} {v : Byte} {m : Memory} (h : Memory.wfFrom p lo m = true)
    (hf : Memory.find a m = some v) : v ≠ resetByte p a ∧ lo ≤ a := by
  induction m generalizing lo with
  | nil => simp [Memory.find] at hf
  | cons e m ih =>
    simp only [Memory.wfFrom, Bool.and_eq_true, decide_eq_true_eq, bne_iff_ne] at h
    obtain ⟨⟨⟨hlo, -⟩, hv⟩, hm⟩ := h
    by_cases ha : a = e.1
    · simp only [Memory.find, ha, if_true, Option.some.injEq] at hf
      rw [ha, ← hf]
      exact ⟨hv, hlo⟩
    · simp only [Memory.find, ha, if_false] at hf
      obtain ⟨h1, h2⟩ := ih hm hf
      exact ⟨h1, by omega⟩

/-- Any other address reads as before, canonical or not. -/
theorem Memory.find_put_other (d v : Byte) {a b : Nat} (h : b ≠ a) (m : Memory) :
    Memory.find b (Memory.put d a v m) = Memory.find b m := by
  induction m with
  | nil => by_cases hv : v = d <;> simp [Memory.put, Memory.find, hv, h]
  | cons e m ih =>
    by_cases h1 : a < e.1
    · by_cases hv : v = d <;> simp [Memory.put, Memory.find, h1, hv, h]
    · by_cases h2 : a = e.1
      · by_cases hv : v = d <;> simp [Memory.put, Memory.find, h2, hv, h2 ▸ h]
      · simp [Memory.put, Memory.find, h1, h2, ih]

/-- The written address, in a canonical list. -/
theorem Memory.find_put_same (v : Byte) {lo a : Nat} {m : Memory} (h : Memory.wfFrom p lo m = true) :
    Memory.find a (Memory.put (resetByte p a) a v m) = if v = resetByte p a then none else some v := by
  induction m generalizing lo with
  | nil => by_cases hv : v = resetByte p a <;> simp [Memory.put, Memory.find, hv]
  | cons e m ih =>
    simp only [Memory.wfFrom, Bool.and_eq_true, decide_eq_true_eq] at h
    obtain ⟨-, hm⟩ := h
    by_cases h1 : a < e.1
    · have hne : a ≠ e.1 := by omega
      have hn : Memory.find a m = none := Memory.find_of_wfFrom hm (by omega)
      by_cases hv : v = resetByte p a <;> simp [Memory.put, Memory.find, h1, hv, hne, hn]
    · by_cases h2 : a = e.1
      · have hn : Memory.find e.1 m = none := Memory.find_of_wfFrom hm (by omega)
        subst h2
        by_cases hv : v = resetByte p e.1 <;> simp [Memory.put, Memory.find, hv, hn]
      · simp [Memory.put, Memory.find, h1, h2, ih hm]

/-- A write keeps the canonical form. -/
theorem Memory.wfFrom_put (v : Byte) {lo a : Nat} {m : Memory} (h : Memory.wfFrom p lo m = true) (hlo : lo ≤ a)
    (ha : a ≤ 0xFFF) : Memory.wfFrom p lo (Memory.put (resetByte p a) a v m) = true := by
  induction m generalizing lo with
  | nil => by_cases hv : v = resetByte p a <;> simp [Memory.put, Memory.wfFrom, hv, hlo, ha]
  | cons e m ih =>
    have h0 := h
    simp only [Memory.wfFrom, Bool.and_eq_true, decide_eq_true_eq, bne_iff_ne] at h
    obtain ⟨⟨⟨h1, h2⟩, h3⟩, hm⟩ := h
    by_cases h4 : a < e.1
    · by_cases hv : v = resetByte p a
      · simpa [Memory.put, h4, hv] using h0
      · simp only [Memory.put, h4, hv, if_true, if_false, Memory.wfFrom, Bool.and_eq_true, decide_eq_true_eq,
          bne_iff_ne]
        exact ⟨⟨⟨hlo, ha⟩, hv⟩, ⟨⟨by omega, h2⟩, h3⟩, hm⟩
    · by_cases h5 : a = e.1
      · by_cases hv : v = resetByte p a
        · rw [Memory.put, if_neg h4, if_pos h5, if_pos hv]
          exact Memory.wfFrom_mono hm (by omega)
        · simp only [Memory.put, h4, if_pos h5, hv, if_false, Memory.wfFrom, Bool.and_eq_true, decide_eq_true_eq,
            bne_iff_ne]
          exact ⟨⟨⟨hlo, ha⟩, hv⟩, by rw [h5]; exact hm⟩
      · simp only [Memory.put, h4, h5, if_false, Memory.wfFrom, Bool.and_eq_true, decide_eq_true_eq, bne_iff_ne]
        exact ⟨⟨⟨h1, h2⟩, h3⟩, ih hm (by omega)⟩

/-- A read after a write (20_memory.md R65). -/
theorem Memory.read_write {m : Memory} (h : Memory.wf p m = true) (a b : Nat) (v : Byte) :
    Memory.read p (Memory.write p m a v) b = if b = a then v else Memory.read p m b := by
  by_cases hb : b = a
  · subst hb
    rw [Memory.read, Memory.write, Memory.find_put_same v h]
    by_cases hv : v = resetByte p b <;> simp [hv]
  · simp [Memory.read, Memory.write, Memory.find_put_other _ _ hb, hb]

/-- A write into memory keeps the canonical form. -/
theorem Memory.wf_write {m : Memory} (h : Memory.wf p m = true) {a : Nat} (ha : a ≤ 0xFFF) (v : Byte) :
    Memory.wf p (Memory.write p m a v) = true :=
  Memory.wfFrom_put v h (Nat.zero_le a) ha

/-- The head of a canonical list is listed and nothing before it is. -/
theorem Memory.read_head {lo : Nat} {e : Host.Cell} {m : Memory} (h : Memory.wfFrom p lo (e :: m) = true) :
    Memory.read p (e :: m) e.1 = e.2 ∧ e.2 ≠ resetByte p e.1 := by
  simp only [Memory.wfFrom, Bool.and_eq_true, bne_iff_ne] at h
  exact ⟨by simp [Memory.read, Memory.find], h.1.2⟩

@[simp] theorem State.readByte_writeByte (s : State) (h : Memory.wf s.params s.mem = true) (a b : Nat) (v : Byte) :
    (s.writeByte a v).readByte b = if b = a then v else s.readByte b :=
  Memory.read_write h a b v

/-- Bytes are read from memory and the parameters alone. -/
theorem State.readByte_of_mem (s t : State) (hm : t.mem = s.mem) (hp : t.params = s.params) (a : Nat) :
    t.readByte a = s.readByte a := by
  simp [State.readByte, hm, hp]

/-- Stores to addresses of memory keep the canonical form. -/
theorem State.storeBytes_wf (s : State) (h : Memory.wf s.params s.mem = true) (cells : List Host.Cell)
    (hc : ∀ c ∈ cells, c.1 ≤ 0xFFF) : Memory.wf s.params (s.storeBytes cells).mem = true := by
  induction cells generalizing s with
  | nil => simpa [State.storeBytes] using h
  | cons c rest ih =>
    have hw : Memory.wf (s.writeByte c.1 c.2).params (s.writeByte c.1 c.2).mem = true := by
      simpa using Memory.wf_write h (hc c (by simp)) c.2
    simpa [State.storeBytes] using ih _ hw fun c' h' => hc c' (List.mem_cons_of_mem _ h')

/-- An address no store names reads as before. -/
theorem State.readByte_storeBytes_other (s : State) (h : Memory.wf s.params s.mem = true) (cells : List Host.Cell)
    (hc : ∀ c ∈ cells, c.1 ≤ 0xFFF) {a : Nat} (ha : ∀ c ∈ cells, c.1 ≠ a) :
    (s.storeBytes cells).readByte a = s.readByte a := by
  induction cells generalizing s with
  | nil => rfl
  | cons c rest ih =>
    have hw : Memory.wf (s.writeByte c.1 c.2).params (s.writeByte c.1 c.2).mem = true := by
      simpa using Memory.wf_write h (hc c (by simp)) c.2
    have hne : a ≠ c.1 := fun he => ha c (by simp) he.symm
    rw [State.storeBytes, ih _ hw (fun c' h' => hc c' (List.mem_cons_of_mem _ h'))
      (fun c' h' => ha c' (List.mem_cons_of_mem _ h')), State.readByte_writeByte s h, if_neg hne]

/-- Stores to addresses that differ are all found again. -/
theorem State.readByte_storeBytes_mem (s : State) (h : Memory.wf s.params s.mem = true) (cells : List Host.Cell)
    (hc : ∀ c ∈ cells, c.1 ≤ 0xFFF) (hd : (cells.map Prod.fst).Nodup) {c : Host.Cell} (hm : c ∈ cells) :
    (s.storeBytes cells).readByte c.1 = c.2 := by
  induction cells generalizing s with
  | nil => simp at hm
  | cons c' rest ih =>
    have hw : Memory.wf (s.writeByte c'.1 c'.2).params (s.writeByte c'.1 c'.2).mem = true := by
      simpa using Memory.wf_write h (hc c' (by simp)) c'.2
    have hrest : ∀ d ∈ rest, d.1 ≤ 0xFFF := fun d hd' => hc d (List.mem_cons_of_mem _ hd')
    rw [List.map_cons, List.nodup_cons] at hd
    rcases List.mem_cons.mp hm with rfl | hm
    · rw [State.storeBytes, State.readByte_storeBytes_other _ hw rest hrest
        (fun d hd' he => hd.1 (List.mem_map.mpr ⟨d, hd', he⟩)), State.readByte_writeByte s h, if_pos rfl]
    · exact ih _ hw hrest hd.2 hm

end Sys2Proof.Machine
end

