-- ==== Sys2Proof/Laws/Operands.lean ====
section
/-! SUPPORT. What each operand form can do: address resolution, blocks of addresses, keys, blocks of registers. -/

namespace Sys2Proof.Machine

variable {s t : State}

/-! Address resolution (20_memory.md R64). -/

theorem State.ea_low (k : Access) {a : Nat} (h : a ≤ 0xFFF) : s.ea k a = .ok a := by
  simp [State.ea, h]

theorem State.ea_wrap (k : Access) (a : Nat) (h : s.params.oobPolicy = .wrap) : s.ea k a = .ok (a % 4096) := by
  by_cases ha : a ≤ 0xFFF
  · rw [State.ea_low k ha, Nat.mod_eq_of_lt (by omega)]
  · simp [State.ea, ha, h]

theorem State.ea_fault (k : Access) {a : Nat} (h : s.params.oobPolicy = .fault) (ha : ¬ a ≤ 0xFFF) :
    s.ea k a = .error k.cause := by
  simp [State.ea, ha, h]

theorem State.ea_lt {k : Access} {a b : Nat} (h : s.ea k a = .ok b) : b ≤ 0xFFF := by
  unfold State.ea at h
  split at h
  · cases h; assumption
  · split at h
    · cases h; omega
    · cases h

theorem State.ea_error {k : Access} {a : Nat} {c : Cause} (h : s.ea k a = .error c) :
    c = k.cause ∧ s.params.oobPolicy = .fault ∧ ¬ a ≤ 0xFFF := by
  unfold State.ea at h
  split at h
  · cases h
  · split at h
    · cases h
    · cases h; exact ⟨rfl, ‹_›, ‹_›⟩

/-- A resolved address is the address modulo 4096 under both policies. -/
theorem State.ea_mod {k : Access} {a b : Nat} (h : s.ea k a = .ok b) : b = a % 4096 := by
  by_cases ha : a ≤ 0xFFF
  · rw [State.ea_low k ha] at h
    cases h; omega
  · cases hp : s.params.oobPolicy with
    | wrap => rw [State.ea_wrap k a hp] at h; cases h; rfl
    | fault => rw [State.ea_fault k hp ha] at h; cases h

theorem State.ea_congr (h : t.params = s.params) (k : Access) (a : Nat) : t.ea k a = s.ea k a := by
  simp [State.ea, h]

/-! Blocks of data addresses (20_memory.md R65, R66). -/

/-- A resolved block has `n` addresses, the `i`-th the resolution of `base + i`. -/
theorem State.eaBlock_ok {base n : Nat} {as : List Nat} (h : s.eaBlock base n = .ok as) :
    as.length = n ∧ ∀ i (hi : i < as.length), s.ea .data (base + i) = .ok as[i] := by
  induction n generalizing base as with
  | zero => cases h; simp
  | succ n ih =>
    rw [State.eaBlock] at h
    split at h
    · cases h
    · rename_i a ha
      split at h
      · cases h
      · rename_i rest hr
        cases h
        obtain ⟨hlen, hget⟩ := ih hr
        refine ⟨by simp [hlen], fun i hi => ?_⟩
        cases i with
        | zero => simpa using ha
        | succ i =>
          have := hget i (by simpa using hi)
          simpa [Nat.add_assoc, Nat.add_comm 1 i] using this

/-- A block that cannot be resolved raises DataAddressRange, because its last address is out of range. -/
theorem State.eaBlock_error {base n : Nat} {c : Cause} (h : s.eaBlock base n = .error c) :
    c = .dataAddressRange ∧ s.params.oobPolicy = .fault ∧ n ≠ 0 ∧ ¬ base + (n - 1) ≤ 0xFFF := by
  induction n generalizing base with
  | zero => cases h
  | succ n ih =>
    rw [State.eaBlock] at h
    split at h
    · rename_i c' hc
      cases h
      obtain ⟨h1, h2, h3⟩ := State.ea_error hc
      exact ⟨h1, h2, by omega, by omega⟩
    · split at h
      · rename_i c' hc
        cases h
        obtain ⟨h1, h2, h3, h4⟩ := ih hc
        exact ⟨h1, h2, by omega, by omega⟩
      · cases h

/-- A block in reach resolves. -/
theorem State.eaBlock_of_reach {n : Nat} (h : BlockInReach s n) : ∃ as, s.eaBlock s.I.toNat n = .ok as := by
  cases hb : s.eaBlock s.I.toNat n with
  | ok as => exact ⟨as, rfl⟩
  | error c =>
    obtain ⟨-, h2, h3, h4⟩ := State.eaBlock_error hb
    rcases h with h | h | h
    · simp [h] at h2
    · exact absurd h h3
    · exact absurd h h4

/-- A block out of reach raises. -/
theorem State.eaBlock_of_not_reach {n : Nat} (h : ¬ BlockInReach s n) :
    s.eaBlock s.I.toNat n = .error .dataAddressRange := by
  cases hb : s.eaBlock s.I.toNat n with
  | error c => rw [(State.eaBlock_error hb).1]
  | ok as =>
    exfalso
    obtain ⟨hlen, hget⟩ := State.eaBlock_ok hb
    simp only [BlockInReach, not_or] at h
    obtain ⟨h1, h2, h3⟩ := h
    have hp : s.params.oobPolicy = .fault := by
      cases hp : s.params.oobPolicy with
      | fault => rfl
      | wrap => exact absurd hp h1
    have := hget (n - 1) (by omega)
    rw [State.ea_fault _ hp h3] at this
    cases this

/-- "they cannot resolve to the same cell": the addresses of a block of at most 4096 differ (20_memory.md R69). -/
theorem State.eaBlock_nodup {base n : Nat} {as : List Nat} (h : s.eaBlock base n = .ok as) (hn : n ≤ 4096) :
    as.Nodup := by
  obtain ⟨hlen, hget⟩ := State.eaBlock_ok h
  rw [List.nodup_iff_getElem?_ne_getElem?]
  intro i j hij hj
  rw [List.getElem?_eq_getElem (by omega), List.getElem?_eq_getElem hj]
  have h1 := State.ea_mod (hget i (by omega))
  have h2 := State.ea_mod (hget j hj)
  intro he
  simp only [Option.some.injEq] at he
  omega

theorem State.eaBlock_le {base n : Nat} {as : List Nat} (h : s.eaBlock base n = .ok as) {a : Nat} (ha : a ∈ as) :
    a ≤ 0xFFF := by
  obtain ⟨i, hi, rfl⟩ := List.mem_iff_getElem.mp ha
  exact State.ea_lt ((State.eaBlock_ok h).2 i hi)

/-! Keys (46_input.md R197, R198). -/

theorem State.keyIndex_low {v : Byte} (h : v.toNat ≤ 15) : s.keyIndex v = .ok (Fin.ofNat 16 v.toNat) := by
  simp [State.keyIndex, h]

theorem State.keyIndex_wrap (v : Byte) (h : s.params.oobPolicy = .wrap) :
    s.keyIndex v = .ok (Fin.ofNat 16 v.toNat) := by
  by_cases hv : v.toNat ≤ 15 <;> simp [State.keyIndex, hv, h]

theorem State.keyIndex_fault {v : Byte} (h : s.params.oobPolicy = .fault) (hv : ¬ v.toNat ≤ 15) :
    s.keyIndex v = .error .keyIndexRange := by
  simp [State.keyIndex, hv, h]

theorem State.keyIndex_ok {v : Byte} {k : Nibble} (h : s.keyIndex v = .ok k) : k = Fin.ofNat 16 v.toNat := by
  unfold State.keyIndex at h
  split at h
  · cases h; rfl
  · split at h <;> cases h; rfl

theorem State.keyIndex_error {v : Byte} {c : Cause} (h : s.keyIndex v = .error c) :
    c = .keyIndexRange ∧ s.params.oobPolicy = .fault ∧ ¬ v.toNat ≤ 15 := by
  unfold State.keyIndex at h
  split at h
  · cases h
  · split at h
    · cases h
    · cases h; exact ⟨rfl, ‹_›, ‹_›⟩

/-- The scan finds nothing iff no key it looks at is pressed. -/
theorem State.pressedFrom_none {k n : Nat} :
    s.pressedFrom k n = none ↔ ∀ j, k ≤ j → j < k + n → s.key (Fin.ofNat 16 j) = false := by
  induction n generalizing k with
  | zero => simp only [State.pressedFrom, true_iff]; intro j h1 h2; omega
  | succ n ih =>
    rw [State.pressedFrom]
    by_cases hk : s.key (Fin.ofNat 16 k) = true
    · rw [if_pos hk]
      simp only [reduceCtorEq, false_iff]
      intro hall
      rw [hall k (le_refl k) (by omega)] at hk
      cases hk
    · rw [if_neg hk, ih]
      constructor
      · intro hall j h1 h2
        by_cases hj : j = k
        · subst hj; simpa using hk
        · exact hall j (by omega) (by omega)
      · intro hall j h1 h2
        exact hall j (by omega) (by omega)

/-- What the scan finds is pressed, and nothing it passed is. -/
theorem State.pressedFrom_some {k n : Nat} {r : Nibble} (h : s.pressedFrom k n = some r) :
    ∃ j, k ≤ j ∧ j < k + n ∧ r = Fin.ofNat 16 j ∧ s.key r = true ∧
      ∀ i, k ≤ i → i < j → s.key (Fin.ofNat 16 i) = false := by
  induction n generalizing k with
  | zero => cases h
  | succ n ih =>
    rw [State.pressedFrom] at h
    by_cases hk : s.key (Fin.ofNat 16 k) = true
    · rw [if_pos hk] at h
      cases h
      exact ⟨k, le_refl k, by omega, rfl, hk, fun i h1 h2 => by omega⟩
    · rw [if_neg hk] at h
      obtain ⟨j, h1, h2, h3, h4, h5⟩ := ih h
      refine ⟨j, by omega, by omega, h3, h4, fun i hi1 hi2 => ?_⟩
      by_cases hik : i = k
      · subst hik; simpa using hk
      · exact h5 i (by omega) hi2

theorem State.lowestPressed_none : s.lowestPressed = none ↔ ∀ k, s.key k = false := by
  rw [State.lowestPressed, State.pressedFrom_none]
  constructor
  · intro h k
    simpa using h k.val (by omega) (by omega)
  · intro h j _ _
    exact h _

theorem State.lowestPressed_some {k : Nibble} :
    s.lowestPressed = some k ↔ s.key k = true ∧ ∀ j, j < k → s.key j = false := by
  constructor
  · intro h
    obtain ⟨j, -, h2, rfl, h4, h5⟩ := State.pressedFrom_some h
    refine ⟨h4, fun i hi => ?_⟩
    have hj : (Fin.ofNat 16 j).val = j := Nat.mod_eq_of_lt (by omega)
    simpa using h5 i.val (by omega) (by rw [Fin.lt_def, hj] at hi; exact hi)
  · intro ⟨hk, hmin⟩
    cases hl : s.lowestPressed with
    | none => rw [State.lowestPressed_none.mp hl k] at hk; cases hk
    | some r =>
      obtain ⟨j, -, h2, rfl, h4, h5⟩ := State.pressedFrom_some hl
      have hj : (Fin.ofNat 16 j).val = j := Nat.mod_eq_of_lt (by omega)
      rcases Nat.lt_trichotomy j k.val with hlt | heq | hgt
      · rw [hmin _ (by rw [Fin.lt_def, hj]; exact hlt)] at h4; cases h4
      · exact congrArg some (Fin.ext (by rw [hj]; exact heq))
      · have := h5 k.val (by omega) hgt
        rw [show Fin.ofNat 16 k.val = k by simp] at this
        rw [this] at hk; cases hk

/-! Blocks of registers (44_memory_index.md R183, R184). -/

theorem State.regsUpTo_length (x : Nibble) : (s.regsUpTo x).length = x.val + 1 := by
  simp [State.regsUpTo]

theorem State.regsUpTo_getElem (x : Nibble) {i : Nat} (hi : i < (s.regsUpTo x).length) (h16 : i < 16) :
    (s.regsUpTo x)[i] = s.reg ⟨i, h16⟩ := by
  simp [State.regsUpTo, State.reg]

/-- A block load writes the registers from `k` on, one a byte, and no other. -/
theorem State.reg_setRegsFrom (k : Nat) (bs : List Byte) (h : k + bs.length ≤ 16) (r : Nibble) :
    (s.setRegsFrom k bs).reg r =
      if h : k ≤ r.val ∧ r.val < k + bs.length then bs[r.val - k] else s.reg r := by
  induction bs generalizing s k with
  | nil => rw [dif_neg (by simp only [List.length_nil]; omega)]; rfl
  | cons b bs ih =>
    simp only [List.length_cons] at h
    rw [State.setRegsFrom, ih (k + 1) (by omega), State.reg_setReg]
    have hk : (Fin.ofNat 16 k).val = k := Nat.mod_eq_of_lt (by omega)
    by_cases h1 : r.val = k
    · have hr : r = Fin.ofNat 16 k := Fin.ext (by rw [hk]; exact h1)
      rw [dif_neg (by omega), if_pos hr, dif_pos (by simp only [List.length_cons]; omega)]
      simp [h1]
    · have hr : r ≠ Fin.ofNat 16 k := fun he => h1 (by rw [he, hk])
      by_cases h2 : k + 1 ≤ r.val ∧ r.val < k + 1 + bs.length
      · rw [dif_pos h2, dif_pos (by simp only [List.length_cons]; omega)]
        have : r.val - k = (r.val - (k + 1)) + 1 := by omega
        simp [this]
      · rw [dif_neg h2, if_neg hr, dif_neg (by simp only [List.length_cons]; omega)]

end Sys2Proof.Machine
end

