-- ==== Sys2Proof/Laws/Ops.lean ====
section
/-! SUPPORT. What each shared operation can do, said once: taking a fault, settling a cycle, blocks of memory, the call
stack, the fetch, the host's next command. -/

namespace Sys2Proof.Machine

variable {s t : State}

/-- Taking a fault answers the state with the latch set. -/
theorem State.raise_eq (s : State) (c : Cause) : s.raise c = .next { s with fault := some c } := rfl

/-! Settling a cycle (40_cycle_and_dispatch.md R125). -/

theorem settle_clear (b : State) (h : t.fault = none) : settle b (.next t) = .next t := by
  simp [settle, h]

theorem settle_raised (b : State) {c : Cause} (h : t.fault = some c) :
    settle b (.next t) = .next { b with fault := some c } := by
  simp [settle, h, State.raise]

/-- A settled cycle answers what its handler answered with a clear latch, or the state it found with the latch. -/
theorem settle_next {b u : State} {o : Host.Outcome State Fault Refusal} (h : settle b o = .next u) :
    (∃ t, o = .next t ∧ t.fault = none ∧ u = t) ∨
    ∃ t c, o = .next t ∧ t.fault = some c ∧ u = { b with fault := some c } := by
  cases o with
  | next t =>
    cases hf : t.fault with
    | none => rw [settle_clear b hf] at h; cases h; exact .inl ⟨_, rfl, hf, rfl⟩
    | some c => rw [settle_raised b hf] at h; cases h; exact .inr ⟨_, c, rfl, hf, rfl⟩
  | fault r => cases h
  | refused r => cases h

/-! Blocks of data addresses (44_memory_index.md section 1). -/

theorem State.withBlock_ok {n : Nat} {as : List Nat} (f : List Nat → State) (h : s.eaBlock s.I.toNat n = .ok as) :
    s.withBlock n f = .next (f as) := by
  simp [State.withBlock, h]

theorem State.withBlock_not_reach {n : Nat} (f : List Nat → State) (h : ¬ BlockInReach s n) :
    s.withBlock n f = .next { s with fault := some .dataAddressRange } := by
  simp [State.withBlock, State.eaBlock_of_not_reach h, State.raise]

/-- A block operation answers its effect on the resolved addresses, or takes DataAddressRange. -/
theorem State.withBlock_next {n : Nat} {f : List Nat → State} (h : s.withBlock n f = .next t) :
    (∃ as, s.eaBlock s.I.toNat n = .ok as ∧ t = f as) ∨
    (s.eaBlock s.I.toNat n = .error .dataAddressRange ∧ t = { s with fault := some .dataAddressRange }) := by
  unfold State.withBlock at h
  split at h
  · rename_i c hc
    obtain ⟨rfl, -⟩ := State.eaBlock_error hc
    cases h
    exact .inr ⟨hc, rfl⟩
  · cases h
    exact .inl ⟨_, ‹_›, rfl⟩

/-! The call stack (41_control_flow.md R141, R143). -/

theorem slotAt_lt {k : Nat} (h : k < 16) : slotAt k = .slot ⟨k, h⟩ := by
  rw [slotAt, if_pos h]
  exact congrArg StackSlot.slot (Fin.ext (Nat.mod_eq_of_lt h))

theorem slotAt_ge {k : Nat} (h : ¬ k < 16) : slotAt k = .absent := by
  rw [slotAt, if_neg h]

/-- A push finds its slot at sp, below 16. -/
theorem State.pushSlot_slot {k : Nibble} (h : s.pushSlot = .slot k) : k.val = s.sp.toNat := by
  unfold State.pushSlot at h
  split at h
  · split at h
    · cases h
    · by_cases hk : s.sp.toNat < 16
      · rw [slotAt_lt hk] at h; cases h; rfl
      · rw [slotAt_ge hk] at h; cases h
  · by_cases hk : s.sp.toNat < 16
    · rw [slotAt_lt hk] at h; cases h; rfl
    · rw [slotAt_ge hk] at h; cases h

theorem State.pushSlot_of_lt (h : s.sp.toNat < 16) : s.pushSlot = .slot ⟨s.sp.toNat, h⟩ := by
  unfold State.pushSlot
  split
  · rw [if_neg (by omega), slotAt_lt h]
  · exact slotAt_lt h

theorem State.pushSlot_raises {c : Cause} (h : s.pushSlot = .raises c) :
    c = .stackOverflow ∧ s.params.stackPolicy = .fault ∧ s.sp.toNat = 16 := by
  unfold State.pushSlot at h
  split at h
  · split at h
    · cases h; exact ⟨rfl, ‹_›, ‹_›⟩
    · unfold slotAt at h; split at h <;> cases h
  · unfold slotAt at h; split at h <;> cases h

/-- A push stops only for a value of sp the invariant excludes. -/
theorem State.pushSlot_absent (h : s.pushSlot = .absent) : spMax s.params < s.sp.toNat := by
  unfold State.pushSlot at h
  split at h
  · rename_i hp
    split at h
    · cases h
    · unfold slotAt at h
      split at h
      · cases h
      · simp only [spMax, hp]; omega
  · rename_i hp
    unfold slotAt at h
    split at h
    · cases h
    · simp only [spMax, hp]; omega

/-- A pop finds its slot one below sp, modulo 16. -/
theorem State.popSlot_slot {k : Nibble} (h : s.popSlot = .slot k) : k.val = (s.sp.toNat + 15) % 16 := by
  unfold State.popSlot at h
  split at h
  · split at h
    · cases h
    · by_cases hk : s.sp.toNat - 1 < 16
      · rw [slotAt_lt hk] at h; cases h; show s.sp.toNat - 1 = _; omega
      · rw [slotAt_ge hk] at h; cases h
  · cases h; rfl

theorem State.popSlot_fault (hp : s.params.stackPolicy = .fault) (h0 : s.sp.toNat ≠ 0) (h : s.sp.toNat - 1 < 16) :
    s.popSlot = .slot ⟨s.sp.toNat - 1, h⟩ := by
  simp only [State.popSlot, hp, if_neg h0, slotAt_lt h]

theorem State.popSlot_wrap (hp : s.params.stackPolicy = .wrap) :
    s.popSlot = .slot (Fin.ofNat 16 (s.sp.toNat + 15)) := by
  simp only [State.popSlot, hp]

theorem State.popSlot_raises {c : Cause} (h : s.popSlot = .raises c) :
    c = .stackUnderflow ∧ s.params.stackPolicy = .fault ∧ s.sp.toNat = 0 := by
  unfold State.popSlot at h
  split at h
  · split at h
    · cases h; exact ⟨rfl, ‹_›, ‹_›⟩
    · unfold slotAt at h; split at h <;> cases h
  · cases h

theorem State.popSlot_absent (h : s.popSlot = .absent) : spMax s.params < s.sp.toNat := by
  unfold State.popSlot at h
  split at h
  · rename_i hp
    split at h
    · cases h
    · unfold slotAt at h
      split at h
      · cases h
      · simp only [spMax, hp]; omega
  · cases h

/-- A push keeps sp legal. -/
theorem State.spAfterPush_le (s : State) (k : Nibble) : (s.spAfterPush k).toNat ≤ spMax s.params := by
  unfold State.spAfterPush spMax
  split <;> rename_i hp <;> simp only [hp, BitVec.toNat_ofNat] <;> omega

theorem State.spAfterPush_fault (h : s.params.stackPolicy = .fault) (k : Nibble) :
    (s.spAfterPush k).toNat = k.val + 1 := by
  simp only [State.spAfterPush, h, BitVec.toNat_ofNat]; omega

theorem State.spAfterPush_wrap (h : s.params.stackPolicy = .wrap) (k : Nibble) :
    (s.spAfterPush k).toNat = (k.val + 1) % 16 := by
  simp only [State.spAfterPush, h, BitVec.toNat_ofNat]; omega

/-! The fetch (40_cycle_and_dispatch.md R121). -/

/-- A fetch that succeeds reads the bytes at the two resolved addresses. -/
theorem State.fetchWord_ok {w : Word} (h : s.fetchWord = .ok w) :
    ∃ a0 a1, s.ea .fetch s.pc.toNat = .ok a0 ∧ s.ea .fetch (s.pc.toNat + 1) = .ok a1 ∧
      w = wordOfBytes (s.readByte a0) (s.readByte a1) := by
  unfold State.fetchWord at h
  split at h
  · cases h
  · split at h
    · cases h
    · cases h; exact ⟨_, _, ‹_›, ‹_›, rfl⟩

theorem State.fetchWord_of_ea {a0 a1 : Nat} (h0 : s.ea .fetch s.pc.toNat = .ok a0)
    (h1 : s.ea .fetch (s.pc.toNat + 1) = .ok a1) :
    s.fetchWord = .ok (wordOfBytes (s.readByte a0) (s.readByte a1)) := by
  simp [State.fetchWord, h0, h1]

/-- A fetch that fails raises FetchAddressRange, because pc is above 0xFFE. -/
theorem State.fetchWord_error {c : Cause} (h : s.fetchWord = .error c) :
    c = .fetchAddressRange ∧ s.params.oobPolicy = .fault ∧ ¬ s.pc.toNat ≤ 0xFFE := by
  unfold State.fetchWord at h
  split at h
  · rename_i hc
    cases h
    obtain ⟨h1, h2, h3⟩ := State.ea_error hc
    exact ⟨h1, h2, by omega⟩
  · split at h
    · rename_i hc
      cases h
      obtain ⟨h1, h2, h3⟩ := State.ea_error hc
      exact ⟨h1, h2, by omega⟩
    · cases h

/-- The fetch reads pc, memory and the parameters alone. -/
theorem State.fetchWord_congr (hpc : t.pc = s.pc) (hm : t.mem = s.mem) (hp : t.params = s.params) :
    t.fetchWord = s.fetchWord := by
  simp [State.fetchWord, State.ea, State.readByte, hpc, hm, hp]

/-! The byte order (20_memory.md R63). -/

theorem wordOfBytes_toNat (hi lo : Byte) : (wordOfBytes hi lo).toNat = hi.toNat * 256 + lo.toNat := by
  have := hi.isLt
  have := lo.isLt
  simp only [wordOfBytes, BitVec.toNat_ofNat]; omega

theorem wordOfBytes_high_low (w : Word) : wordOfBytes (highByte w) (lowByte w) = w := by
  apply BitVec.eq_of_toNat_eq
  have := w.isLt
  rw [wordOfBytes_toNat]
  simp only [highByte, lowByte, BitVec.toNat_ofNat, BitVec.toNat_setWidth]; omega

theorem highByte_wordOfBytes (hi lo : Byte) : highByte (wordOfBytes hi lo) = hi := by
  apply BitVec.eq_of_toNat_eq
  have := hi.isLt
  have := lo.isLt
  simp only [highByte, wordOfBytes_toNat, BitVec.toNat_ofNat]; omega

theorem lowByte_wordOfBytes (hi lo : Byte) : lowByte (wordOfBytes hi lo) = lo := by
  apply BitVec.eq_of_toNat_eq
  have := hi.isLt
  have := lo.isLt
  simp only [lowByte, wordOfBytes_toNat, BitVec.toNat_setWidth]; omega

end Sys2Proof.Machine
end

