-- ==== Sys2Proof/Laws/Draw.lean ====
section
/-! SUPPORT. What the sprite-draw loops do: the pixels under set sprite bits flip, every other pixel stays, and the
collision is whether one of them was on (48_draw.md R210 to R212). -/

namespace Sys2Proof.Machine

/-- One of the listed columns of a sprite row is set and falls on pixel column `x`. -/
def RowCovers (row : Byte) (ox : Nat) (cs : List Nat) (x : Fin 64) : Prop :=
  ∃ c ∈ cs, x.val = (ox + c) % 64 ∧ row.getLsbD (7 - c) = true

/-- A set bit of the rows, the first of which is row `r`, falls on pixel (x, y). -/
def RowsCover (ox oy r : Nat) (rows : List Byte) (y : Fin 32) (x : Fin 64) : Prop :=
  ∃ (i : Nat) (h : i < rows.length), y.val = (oy + (r + i)) % 32 ∧ RowCovers rows[i] ox spriteColumns x

theorem rowCovers_nil (row : Byte) (ox : Nat) (x : Fin 64) : ¬ RowCovers row ox [] x := by
  simp [RowCovers]

theorem rowCovers_cons (row : Byte) (ox c : Nat) (cs : List Nat) (x : Fin 64) :
    RowCovers row ox (c :: cs) x ↔
      (x.val = (ox + c) % 64 ∧ row.getLsbD (7 - c) = true) ∨ RowCovers row ox cs x := by
  simp [RowCovers]

theorem rowsCover_nil (ox oy r : Nat) (y : Fin 32) (x : Fin 64) : ¬ RowsCover ox oy r [] y x := by
  simp [RowsCover]

theorem rowsCover_cons (ox oy r : Nat) (row : Byte) (rows : List Byte) (y : Fin 32) (x : Fin 64) :
    RowsCover ox oy r (row :: rows) y x ↔
      (y.val = (oy + r) % 32 ∧ RowCovers row ox spriteColumns x) ∨ RowsCover ox oy (r + 1) rows y x := by
  constructor
  · rintro ⟨i, h, hy, hx⟩
    cases i with
    | zero => exact .inl ⟨hy, hx⟩
    | succ i => exact .inr ⟨i, by simpa using h, by rw [hy]; congr 1; omega, by simpa using hx⟩
  · rintro (⟨hy, hx⟩ | ⟨i, h, hy, hx⟩)
    · exact ⟨0, by simp, hy, hx⟩
    · exact ⟨i + 1, by simpa using h, by rw [hy]; congr 1; omega, by simpa using hx⟩

/-- One sprite row: the pixels it covers flip, and the others stay. -/
theorem drawColumns_pixel (row : Byte) (ox : Nat) (y : Fin 32) (cs : List Nat) (hd : cs.Nodup)
    (hc : ∀ c ∈ cs, c < 64) (vc : Video × Bool) (y' : Fin 32) (x' : Fin 64) :
    Video.get (drawColumns row ox y cs vc).1 y' x' = true ↔
      (Video.get vc.1 y' x' = true ↔ ¬ (y' = y ∧ RowCovers row ox cs x')) := by
  induction cs generalizing vc with
  | nil => simp [drawColumns, rowCovers_nil]
  | cons c cs ih =>
    rw [List.nodup_cons] at hd
    rw [drawColumns, ih hd.2 fun d h => hc d (List.mem_cons_of_mem _ h), rowCovers_cons]
    by_cases hb : row.getLsbD (7 - c) = true
    · rw [if_pos hb, drawPixel, Video.get_flip]
      by_cases hx : y' = y ∧ x' = Fin.ofNat 64 (ox + c)
      · obtain ⟨rfl, rfl⟩ := hx
        have hno : ¬ RowCovers row ox cs (Fin.ofNat 64 (ox + c)) := by
          rintro ⟨d, hd', he, -⟩
          have h1 := hc c (by simp)
          have h2 := hc d (List.mem_cons_of_mem _ hd')
          have h3 : (ox + c) % 64 = (ox + d) % 64 := he
          have h4 : c = d := by omega
          exact hd.1 (h4 ▸ hd')
        have hyes : (Fin.ofNat 64 (ox + c)).val = (ox + c) % 64 := rfl
        simp only [true_and, and_self, if_true, hno, hyes, hb, or_false, not_true_eq_false, not_false_eq_true]
        cases Video.get vc.1 y' (Fin.ofNat 64 (ox + c)) <;> simp
      · rw [if_neg hx]
        have hx' : ¬ (y' = y ∧ x'.val = (ox + c) % 64) := fun h => hx ⟨h.1, Fin.ext h.2⟩
        by_cases hy : y' = y
        · have : ¬ x'.val = (ox + c) % 64 := fun h => hx' ⟨hy, h⟩
          simp [this]
        · simp [hy]
    · rw [if_neg hb]
      simp [hb]

/-- One sprite row: a collision is seen iff one was seen before, or a covered pixel was on. -/
theorem drawColumns_collision (row : Byte) (ox : Nat) (y : Fin 32) (cs : List Nat) (hd : cs.Nodup)
    (hc : ∀ c ∈ cs, c < 64) (vc : Video × Bool) :
    (drawColumns row ox y cs vc).2 = true ↔
      vc.2 = true ∨ ∃ x, RowCovers row ox cs x ∧ Video.get vc.1 y x = true := by
  induction cs generalizing vc with
  | nil => simp [drawColumns, rowCovers_nil]
  | cons c cs ih =>
    rw [List.nodup_cons] at hd
    rw [drawColumns, ih hd.2 fun d h => hc d (List.mem_cons_of_mem _ h)]
    by_cases hb : row.getLsbD (7 - c) = true
    · have hno : ∀ x, RowCovers row ox cs x → x ≠ Fin.ofNat 64 (ox + c) := by
        rintro x ⟨d, hd', he, -⟩ rfl
        have h1 := hc c (by simp)
        have h2 := hc d (List.mem_cons_of_mem _ hd')
        have h3 : (ox + c) % 64 = (ox + d) % 64 := he
        have h4 : c = d := by omega
        exact hd.1 (h4 ▸ hd')
      rw [if_pos hb, drawPixel]
      simp only [Bool.or_eq_true, rowCovers_cons, hb, and_true, or_assoc]
      constructor
      · rintro (h | h | ⟨x, hx, hv⟩)
        · exact .inl h
        · exact .inr ⟨_, .inl rfl, h⟩
        · rw [Video.get_flip, if_neg fun h => hno x hx h.2] at hv
          exact .inr ⟨x, .inr hx, hv⟩
      · rintro (h | ⟨x, hx | hx, hv⟩)
        · exact .inl h
        · have : x = Fin.ofNat 64 (ox + c) := Fin.ext hx
          exact .inr (.inl (this ▸ hv))
        · exact .inr (.inr ⟨x, hx, by rw [Video.get_flip, if_neg fun h => hno x hx h.2]; exact hv⟩)
    · rw [if_neg hb]
      simp [rowCovers_cons, hb]

theorem spriteColumns_nodup : spriteColumns.Nodup := by decide

theorem spriteColumns_lt : ∀ c ∈ spriteColumns, c < 64 := by decide

theorem mem_spriteColumns (c : Nat) : c ∈ spriteColumns ↔ c < 8 := by
  simp only [spriteColumns, List.mem_cons, List.not_mem_nil, or_false]; omega

/-- No pixel row is visited twice (48_draw.md R211). -/
theorem rowsCover_later {ox oy r : Nat} {rows : List Byte} {y : Fin 32} {x : Fin 64}
    (h : RowsCover ox oy (r + 1) rows y x) (hlen : r + 1 + rows.length ≤ 32) : y.val ≠ (oy + r) % 32 := by
  obtain ⟨i, hi, hy, -⟩ := h
  omega

/-- The whole sprite: the pixels it covers flip, and the others stay. -/
theorem drawRows_pixel (ox oy r : Nat) (rows : List Byte) (hlen : r + rows.length ≤ 32) (vc : Video × Bool)
    (y : Fin 32) (x : Fin 64) :
    Video.get (drawRows ox oy r rows vc).1 y x = true ↔
      (Video.get vc.1 y x = true ↔ ¬ RowsCover ox oy r rows y x) := by
  induction rows generalizing r vc with
  | nil => simp [drawRows, rowsCover_nil]
  | cons row rows ih =>
    simp only [List.length_cons] at hlen
    rw [drawRows, ih (r + 1) (by omega), drawColumns_pixel _ _ _ _ spriteColumns_nodup spriteColumns_lt,
      rowsCover_cons]
    have hy : y = Fin.ofNat 32 (oy + r) ↔ y.val = (oy + r) % 32 := Fin.ext_iff
    rw [hy]
    by_cases hl : RowsCover ox oy (r + 1) rows y x
    · have := rowsCover_later hl (by omega)
      simp [this, hl]
    · simp [hl]

/-- The whole sprite: a collision is seen iff one was seen before, or a covered pixel was on. -/
theorem drawRows_collision (ox oy r : Nat) (rows : List Byte) (hlen : r + rows.length ≤ 32) (vc : Video × Bool) :
    (drawRows ox oy r rows vc).2 = true ↔
      vc.2 = true ∨ ∃ y x, RowsCover ox oy r rows y x ∧ Video.get vc.1 y x = true := by
  induction rows generalizing r vc with
  | nil => simp [drawRows, rowsCover_nil]
  | cons row rows ih =>
    simp only [List.length_cons] at hlen
    rw [drawRows, ih (r + 1) (by omega), drawColumns_collision _ _ _ _ spriteColumns_nodup spriteColumns_lt]
    constructor
    · rintro ((h | ⟨x, hx, hv⟩) | ⟨y, x, hc, hv⟩)
      · exact .inl h
      · exact .inr ⟨_, x, (rowsCover_cons ..).mpr (.inl ⟨rfl, hx⟩), hv⟩
      · have hne := rowsCover_later hc (by omega)
        rw [drawColumns_pixel _ _ _ _ spriteColumns_nodup spriteColumns_lt] at hv
        have hno : ¬ (y = Fin.ofNat 32 (oy + r) ∧ RowCovers row ox spriteColumns x) := fun h => hne (by rw [h.1]; rfl)
        exact .inr ⟨y, x, (rowsCover_cons ..).mpr (.inr hc), hv.mpr hno⟩
    · rintro (h | ⟨y, x, hc, hv⟩)
      · exact .inl (.inl h)
      · rcases (rowsCover_cons ..).mp hc with ⟨hy, hx⟩ | hc
        · have : y = Fin.ofNat 32 (oy + r) := Fin.ext hy
          exact .inl (.inr ⟨x, hx, this ▸ hv⟩)
        · have hne := rowsCover_later hc (by omega)
          have hno : ¬ (y = Fin.ofNat 32 (oy + r) ∧ RowCovers row ox spriteColumns x) :=
            fun h => hne (by rw [h.1]; rfl)
          refine .inr ⟨y, x, hc, ?_⟩
          rw [drawColumns_pixel _ _ _ _ spriteColumns_nodup spriteColumns_lt]
          exact iff_of_true hv hno

/-- The rows read from a resolved block cover exactly what the sprite at I covers (48_draw.md R211). -/
theorem rowsCover_iff_spriteCovers {s : State} {n : Nat} {as : List Nat} (h : s.eaBlock s.I.toNat n = .ok as)
    (ox oy : Nat) (y : Fin 32) (x : Fin 64) :
    RowsCover ox oy 0 (as.map s.readByte) y x ↔ SpriteCovers s ox oy n y x := by
  obtain ⟨hlen, hget⟩ := State.eaBlock_ok h
  constructor
  · rintro ⟨i, hi, hy, c, hc, hx, hb⟩
    have hi' : i < as.length := by simpa using hi
    refine ⟨i, c, as[i], by omega, (mem_spriteColumns c).mp hc, by simpa using hy, hx, hget i hi', by simpa using hb⟩
  · rintro ⟨r, c, a, hr, hc, hy, hx, ha, hb⟩
    have hr' : r < as.length := by omega
    have : as[r] = a := by
      have := hget r hr'
      rw [ha] at this
      cases this; rfl
    exact ⟨r, by simpa using hr', by simpa using hy, c, (mem_spriteColumns c).mpr hc, hx, by simpa [this] using hb⟩

end Sys2Proof.Machine
end

