-- ==== Sys2Proof/Laws/Exec.lean ====
section
/-! SUPPORT. What a meaning, a cycle, a command and a step can do, said once. -/

namespace Sys2Proof.Machine

variable {s t : State}

/-- The fields that no instruction writes: the parameters, the host's side, the keypad, the opcode register. -/
def SameOutside (s t : State) : Prop :=
  t.params = s.params ∧ t.schedule = s.schedule ∧ t.draws = s.draws ∧ t.rnd = s.rnd ∧ t.keypad = s.keypad ∧
    t.opcode = s.opcode

/-- An instruction either takes a fault its governing parameter enables, and then changes the latch alone, or
leaves the latch and the fields no instruction writes as they are. -/
def TakesFault (s t : State) : Prop := ∃ c, causeEnabled s.params c = true ∧ t = { s with fault := some c }

/-- What a block operation can do, from what its effect does. -/
theorem State.withBlock_cases {n : Nat} {f : List Nat → State} (h : s.withBlock n f = .next t) :
    TakesFault s t ∨ ∃ as, s.eaBlock s.I.toNat n = .ok as ∧ t = f as := by
  rcases State.withBlock_next h with ⟨as, ha, rfl⟩ | ⟨he, rfl⟩
  · exact .inr ⟨as, ha, rfl⟩
  · refine .inl ⟨.dataAddressRange, ?_, rfl⟩
    simp [causeEnabled, (State.eaBlock_error he).2.1]

/-- What every instruction can do to the fields it shares with all others. -/
theorem exec_cases {i : Instr} (h : exec i s = .next t) :
    TakesFault s t ∨ (SameOutside s t ∧ t.fault = s.fault) := by
  cases i
  case ret =>
    simp only [exec, execRet] at h
    split at h
    · cases h; exact .inr ⟨by simp [SameOutside], by simp⟩
    · rename_i c hc
      obtain ⟨rfl, hp, -⟩ := State.popSlot_raises hc
      cases h; exact .inl ⟨.stackUnderflow, by simp [causeEnabled, hp], rfl⟩
    · cases h
  case call nnn =>
    simp only [exec, execCall] at h
    split at h
    · cases h; exact .inr ⟨by simp [SameOutside], by simp⟩
    · rename_i c hc
      obtain ⟨rfl, hp, -⟩ := State.pushSlot_raises hc
      cases h; exact .inl ⟨.stackOverflow, by simp [causeEnabled, hp], rfl⟩
    · cases h
  case skp x =>
    simp only [exec, execSkp] at h
    split at h
    · rename_i c hc
      obtain ⟨rfl, hp, -⟩ := State.keyIndex_error hc
      cases h; exact .inl ⟨.keyIndexRange, by simp [causeEnabled, hp], rfl⟩
    · cases h; exact .inr ⟨by simp [SameOutside], by simp⟩
  case sknp x =>
    simp only [exec, execSknp] at h
    split at h
    · rename_i c hc
      obtain ⟨rfl, hp, -⟩ := State.keyIndex_error hc
      cases h; exact .inl ⟨.keyIndexRange, by simp [causeEnabled, hp], rfl⟩
    · cases h; exact .inr ⟨by simp [SameOutside], by simp⟩
  case ldKey x =>
    simp only [exec, execLdKey] at h
    split at h <;> (cases h; exact .inr ⟨by simp [SameOutside], by simp⟩)
  case storeRegs x =>
    rcases State.withBlock_cases h with hf | ⟨as, -, rfl⟩
    · exact .inl hf
    · exact .inr ⟨by simp [SameOutside], by simp⟩
  case loadRegs x =>
    rcases State.withBlock_cases h with hf | ⟨as, -, rfl⟩
    · exact .inl hf
    · exact .inr ⟨by simp [SameOutside], by simp⟩
  case ldB x =>
    rcases State.withBlock_cases h with hf | ⟨as, -, rfl⟩
    · exact .inl hf
    · exact .inr ⟨by simp [SameOutside], by simp⟩
  case drw x y n =>
    rcases State.withBlock_cases h with hf | ⟨as, -, rfl⟩
    · exact .inl hf
    · exact .inr ⟨by simp [SameOutside], by simp⟩
  all_goals cases h; exact .inr ⟨by simp [SameOutside], by simp⟩

/-- What a STEP can do: nothing on a faulted core; FetchAddressRange; or the settled handler of the fetched word
(40_cycle_and_dispatch.md R120). -/
theorem cycle_cases {rnd : Byte} {o : Host.Outcome State Fault Refusal} (h : cycle rnd s = o) :
    (s.fault ≠ none ∧ o = .next s) ∨
    (s.fault = none ∧ s.fetchWord = .error .fetchAddressRange ∧ s.params.oobPolicy = .fault ∧
      o = .next { s with fault := some .fetchAddressRange }) ∨
    ∃ w, s.fault = none ∧ s.fetchWord = .ok w ∧ o = settle s (exec (decodeWord w) (s.commitFetch rnd w)) := by
  unfold cycle at h
  split at h
  · rename_i c hc
    exact .inl ⟨by simp [hc], h.symm⟩
  · rename_i hc
    split at h
    · rename_i c he
      obtain ⟨rfl, hp, -⟩ := State.fetchWord_error he
      exact .inr (.inl ⟨hc, he, hp, h.symm⟩)
    · rename_i w hw
      exact .inr (.inr ⟨w, hc, hw, h.symm⟩)

/-- A STEP of a core that is not faulted, whose fetch succeeds. -/
theorem cycle_eq {rnd : Byte} {w : Word} (hf : s.fault = none) (hw : s.fetchWord = .ok w) :
    cycle rnd s = settle s (exec (decodeWord w) (s.commitFetch rnd w)) := by
  simp [cycle, hf, hw]

/-- A STEP of a faulted core does nothing (40_cycle_and_dispatch.md R126). -/
theorem cycle_faulted {rnd : Byte} (hf : s.fault ≠ none) : cycle rnd s = .next s := by
  cases h : s.fault with
  | none => exact absurd h hf
  | some c => simp [cycle, h]

/-- Where a STEP of a core that is not faulted goes: its own latch for a cause that is enabled, or the handler's
state with a clear latch. -/
theorem cycle_next {rnd : Byte} (h : cycle rnd s = .next t) :
    (s.fault ≠ none ∧ t = s) ∨ (s.fault = none ∧ TakesFault s t) ∨
    ∃ w, s.fault = none ∧ s.fetchWord = .ok w ∧ exec (decodeWord w) (s.commitFetch rnd w) = .next t ∧
      t.fault = none := by
  rcases cycle_cases h with ⟨hf, ho⟩ | ⟨hf, he, hp, ho⟩ | ⟨w, hf, hw, ho⟩
  · cases ho; exact .inl ⟨hf, rfl⟩
  · cases ho; exact .inr (.inl ⟨hf, .fetchAddressRange, by simp [causeEnabled, hp], rfl⟩)
  · rcases settle_next ho.symm with ⟨u, hu, hc, rfl⟩ | ⟨u, c, hu, hc, rfl⟩
    · exact .inr (.inr ⟨w, hf, hw, hu, hc⟩)
    · refine .inr (.inl ⟨hf, c, ?_, rfl⟩)
      rcases exec_cases hu with ⟨c', he, rfl⟩ | ⟨-, hk⟩
      · cases hc; simpa using he
      · simp [hk, hf] at hc

/-- A step is the oldest command of the schedule, or, where that is empty, a STEP with the host's free byte. -/
theorem step_eq (s : State) :
    (s.schedule = [] ∧
      step s = cycle (Config.hostByte s.draws) { s with draws := s.draws + 1 }) ∨
    ∃ c rest, s.schedule = c :: rest ∧ step s = command c { s with schedule := rest } := by
  cases h : s.schedule with
  | nil => exact .inl ⟨rfl, by simp [step, advance, h, command]⟩
  | cons c rest => exact .inr ⟨c, rest, rfl, by simp [step, advance, h]⟩

end Sys2Proof.Machine
end

