-- ==== Sys2Proof/Laws/PerInstr.lean ====
section
/-! SUPPORT. A family of statements made once per instruction: the encoder follows the opcode map. -/

namespace Sys2Proof.Laws.EncodesItsRow

open Sys2Proof

/-- The instruction is well-formed, and its encoded word selects the one row of the opcode map that has its number
(30_encoding.md R100); the word of NOP, row 35, selects none. -/
def Statement (i : Instr) : Prop :=
  i.wellFormed = true ∧ ∀ row ∈ opcodeMap, (row.matchesWord (encode i) = true ↔ row.number = i.rowNumber)

/-! The words of the formats, as numbers. -/

theorem encodeNNN_toNat (t : Nat) (ht : t < 16) (a : Addr) : (encodeNNN t a).toNat = t * 4096 + a.toNat := by
  have := a.isLt
  simp only [encodeNNN, BitVec.toNat_ofNat]; omega

theorem encodeXKK_toNat (t : Nat) (ht : t < 16) (x : Nibble) (k : Byte) :
    (encodeXKK t x k).toNat = t * 4096 + x.val * 256 + k.toNat := by
  have := k.isLt
  simp only [encodeXKK, BitVec.toNat_ofNat]; omega

theorem encodeXYN_toNat (t : Nat) (ht : t < 16) (x y : Nibble) (n : Nat) (hn : n < 16) :
    (encodeXYN t x y n).toNat = t * 4096 + x.val * 256 + y.val * 16 + n := by
  simp only [encodeXYN, BitVec.toNat_ofNat]; omega

theorem encodeXS_toNat (t : Nat) (ht : t < 16) (x : Nibble) (n : Nat) (hn : n < 256) :
    (encodeXS t x n).toNat = t * 4096 + x.val * 256 + n := by
  simp only [encodeXS, BitVec.toNat_ofNat]; omega

/-! The three masks of the map, as arithmetic on the word. -/

theorem matches_F000 (k : Nat) (p w : Word) :
    OpcodeRow.matchesWord ⟨k, 0xF000#16, p⟩ w = true ↔ w.toNat / 4096 * 4096 = p.toNat := by
  rw [OpcodeRow.matchesWord, beq_iff_eq, and_eq_iff_toNat, ← land_F000 w.isLt]; rfl

theorem matches_F00F (k : Nat) (p w : Word) :
    OpcodeRow.matchesWord ⟨k, 0xF00F#16, p⟩ w = true ↔ w.toNat / 4096 * 4096 + w.toNat % 16 = p.toNat := by
  rw [OpcodeRow.matchesWord, beq_iff_eq, and_eq_iff_toNat, ← land_F00F w.isLt]; rfl

theorem matches_F0FF (k : Nat) (p w : Word) :
    OpcodeRow.matchesWord ⟨k, 0xF0FF#16, p⟩ w = true ↔ w.toNat / 4096 * 4096 + w.toNat % 256 = p.toNat := by
  rw [OpcodeRow.matchesWord, beq_iff_eq, and_eq_iff_toNat, ← land_F0FF w.isLt]; rfl

/-- A row agrees with the row number `r` of a word whose top nibble is `t`, and whose lowest nibble and lowest byte are
`n` and `kk` where the row asks for them. -/
def agrees (t : Nat) (n kk : Option Nat) (r : Nat) (row : OpcodeRow) : Bool :=
  if row.pattern.toNat / 4096 = t then
    if row.mask = 0xF000#16 then row.pattern.toNat % 4096 == 0 && row.number == r
    else if row.mask = 0xF00F#16 then
      n.any fun n => decide (t * 4096 + n = row.pattern.toNat) == decide (row.number = r)
    else kk.any fun kk => decide (t * 4096 + kk = row.pattern.toNat) == decide (row.number = r)
  else row.number != r

/-- The one row a word selects, from its top nibble, its lowest nibble and its lowest byte. -/
theorem selects_iff (w : Word) {t r : Nat} (n kk : Option Nat) (ht : w.toNat / 4096 = t)
    (hn : ∀ m ∈ n, w.toNat % 16 = m) (hk : ∀ m ∈ kk, w.toNat % 256 = m)
    (h : ∀ row ∈ opcodeMap, agrees t n kk r row = true) :
    ∀ row ∈ opcodeMap, (row.matchesWord w = true ↔ row.number = r) := by
  have hm : ∀ row ∈ opcodeMap, row.mask = 0xF000#16 ∨ row.mask = 0xF00F#16 ∨ row.mask = 0xF0FF#16 := by decide
  intro row hr
  have ha := h row hr
  obtain ⟨k, mask, p⟩ := row
  by_cases hp : p.toNat / 4096 = t
  · rcases hm _ hr with hm | hm | hm <;> simp only at hm <;> subst hm
    · simp [agrees, hp] at ha
      rw [matches_F000, ht, ← hp, iff_true_right ha.2]; omega
    · cases n with
      | none => simp [agrees, hp] at ha
      | some n =>
        rw [matches_F00F, ht, hn n rfl]
        simpa [agrees, hp] using ha
    · cases kk with
      | none => simp [agrees, hp] at ha
      | some kk =>
        rw [matches_F0FF, ht, hk kk rfl]
        simpa [agrees, hp] using ha
  · have hno : ¬ k = r := by simpa [agrees, hp] using ha
    simp only [hno, iff_false]
    rcases hm _ hr with hm | hm | hm <;> simp only at hm <;> subst hm
    · rw [matches_F000]; omega
    · rw [matches_F00F]; omega
    · rw [matches_F0FF]; omega

/-! The formats (30_encoding.md section 1). -/

theorem nnn_selects (t : Nat) (ht : t < 16) (a : Addr) (r : Nat)
    (h : ∀ row ∈ opcodeMap, agrees t none none r row = true) :
    ∀ row ∈ opcodeMap, (row.matchesWord (encodeNNN t a) = true ↔ row.number = r) :=
  selects_iff _ none none (by have := a.isLt; rw [encodeNNN_toNat t ht]; omega) (by simp) (by simp) h

theorem xkk_selects (t : Nat) (ht : t < 16) (x : Nibble) (k : Byte) (r : Nat)
    (h : ∀ row ∈ opcodeMap, agrees t none none r row = true) :
    ∀ row ∈ opcodeMap, (row.matchesWord (encodeXKK t x k) = true ↔ row.number = r) :=
  selects_iff _ none none (by have := k.isLt; rw [encodeXKK_toNat t ht]; omega) (by simp) (by simp) h

theorem xyn_selects (t : Nat) (ht : t < 16) (x y : Nibble) (n : Nat) (hn : n < 16) (r : Nat)
    (h : ∀ row ∈ opcodeMap, agrees t (some n) none r row = true) :
    ∀ row ∈ opcodeMap, (row.matchesWord (encodeXYN t x y n) = true ↔ row.number = r) :=
  selects_iff _ (some n) none (by rw [encodeXYN_toNat t ht x y n hn]; omega)
    (by simp only [Option.mem_def, Option.some.injEq, encodeXYN_toNat t ht x y n hn]; omega) (by simp) h

theorem xs_selects (t : Nat) (ht : t < 16) (x : Nibble) (n : Nat) (hn : n < 256) (r : Nat)
    (h : ∀ row ∈ opcodeMap, agrees t (some (n % 16)) (some n) r row = true) :
    ∀ row ∈ opcodeMap, (row.matchesWord (encodeXS t x n) = true ↔ row.number = r) :=
  selects_iff _ (some (n % 16)) (some n) (by rw [encodeXS_toNat t ht x n hn]; omega)
    (by simp only [Option.mem_def, Option.some.injEq, encodeXS_toNat t ht x n hn]; omega)
    (by simp only [Option.mem_def, Option.some.injEq, encodeXS_toNat t ht x n hn]; omega) h

/-! One lemma per constructor. -/

theorem cls : Statement .cls := ⟨rfl, by decide⟩

theorem ret : Statement .ret := ⟨rfl, by decide⟩

theorem jp (nnn : Addr) : Statement (.jp nnn) := ⟨rfl, nnn_selects 1 (by decide) nnn 3 (by decide)⟩

theorem call (nnn : Addr) : Statement (.call nnn) := ⟨rfl, nnn_selects 2 (by decide) nnn 4 (by decide)⟩

theorem jpV0 (nnn : Addr) : Statement (.jpV0 nnn) := ⟨rfl, nnn_selects 11 (by decide) nnn 5 (by decide)⟩

theorem seImm (x : Nibble) (kk : Byte) : Statement (.seImm x kk) :=
  ⟨rfl, xkk_selects 3 (by decide) x kk 6 (by decide)⟩

theorem sneImm (x : Nibble) (kk : Byte) : Statement (.sneImm x kk) :=
  ⟨rfl, xkk_selects 4 (by decide) x kk 7 (by decide)⟩

theorem seReg (x y : Nibble) : Statement (.seReg x y) :=
  ⟨rfl, xyn_selects 5 (by decide) x y 0 (by decide) 8 (by decide)⟩

theorem sneReg (x y : Nibble) : Statement (.sneReg x y) :=
  ⟨rfl, xyn_selects 9 (by decide) x y 0 (by decide) 9 (by decide)⟩

theorem ldImm (x : Nibble) (kk : Byte) : Statement (.ldImm x kk) :=
  ⟨rfl, xkk_selects 6 (by decide) x kk 10 (by decide)⟩

theorem addImm (x : Nibble) (kk : Byte) : Statement (.addImm x kk) :=
  ⟨rfl, xkk_selects 7 (by decide) x kk 11 (by decide)⟩

theorem ldReg (x y : Nibble) : Statement (.ldReg x y) :=
  ⟨rfl, xyn_selects 8 (by decide) x y 0 (by decide) 12 (by decide)⟩

theorem orReg (x y : Nibble) : Statement (.orReg x y) :=
  ⟨rfl, xyn_selects 8 (by decide) x y 1 (by decide) 13 (by decide)⟩

theorem andReg (x y : Nibble) : Statement (.andReg x y) :=
  ⟨rfl, xyn_selects 8 (by decide) x y 2 (by decide) 14 (by decide)⟩

theorem xorReg (x y : Nibble) : Statement (.xorReg x y) :=
  ⟨rfl, xyn_selects 8 (by decide) x y 3 (by decide) 15 (by decide)⟩

theorem addReg (x y : Nibble) : Statement (.addReg x y) :=
  ⟨rfl, xyn_selects 8 (by decide) x y 4 (by decide) 16 (by decide)⟩

theorem subReg (x y : Nibble) : Statement (.subReg x y) :=
  ⟨rfl, xyn_selects 8 (by decide) x y 5 (by decide) 17 (by decide)⟩

theorem shr (x : Nibble) : Statement (.shr x) :=
  ⟨rfl, xyn_selects 8 (by decide) x 0 6 (by decide) 18 (by decide)⟩

theorem subnReg (x y : Nibble) : Statement (.subnReg x y) :=
  ⟨rfl, xyn_selects 8 (by decide) x y 7 (by decide) 19 (by decide)⟩

theorem shl (x : Nibble) : Statement (.shl x) :=
  ⟨rfl, xyn_selects 8 (by decide) x 0 14 (by decide) 20 (by decide)⟩

theorem ldI (nnn : Addr) : Statement (.ldI nnn) := ⟨rfl, nnn_selects 10 (by decide) nnn 21 (by decide)⟩

theorem addI (x : Nibble) : Statement (.addI x) := ⟨rfl, xs_selects 15 (by decide) x 30 (by decide) 22 (by decide)⟩

theorem ldF (x : Nibble) : Statement (.ldF x) := ⟨rfl, xs_selects 15 (by decide) x 41 (by decide) 23 (by decide)⟩

theorem storeRegs (x : Nibble) : Statement (.storeRegs x) := ⟨rfl, xs_selects 15 (by decide) x 85 (by decide) 24 (by decide)⟩

theorem loadRegs (x : Nibble) : Statement (.loadRegs x) := ⟨rfl, xs_selects 15 (by decide) x 101 (by decide) 25 (by decide)⟩

theorem ldB (x : Nibble) : Statement (.ldB x) := ⟨rfl, xs_selects 15 (by decide) x 51 (by decide) 26 (by decide)⟩

theorem rnd (x : Nibble) (kk : Byte) : Statement (.rnd x kk) :=
  ⟨rfl, xkk_selects 12 (by decide) x kk 27 (by decide)⟩

theorem skp (x : Nibble) : Statement (.skp x) := ⟨rfl, xs_selects 14 (by decide) x 158 (by decide) 28 (by decide)⟩

theorem sknp (x : Nibble) : Statement (.sknp x) := ⟨rfl, xs_selects 14 (by decide) x 161 (by decide) 29 (by decide)⟩

theorem ldKey (x : Nibble) : Statement (.ldKey x) := ⟨rfl, xs_selects 15 (by decide) x 10 (by decide) 30 (by decide)⟩

theorem getDT (x : Nibble) : Statement (.getDT x) := ⟨rfl, xs_selects 15 (by decide) x 7 (by decide) 31 (by decide)⟩

theorem setDT (x : Nibble) : Statement (.setDT x) := ⟨rfl, xs_selects 15 (by decide) x 21 (by decide) 32 (by decide)⟩

theorem setST (x : Nibble) : Statement (.setST x) := ⟨rfl, xs_selects 15 (by decide) x 24 (by decide) 33 (by decide)⟩

theorem drw (x y n : Nibble) : Statement (.drw x y n) :=
  ⟨rfl, xyn_selects 13 (by decide) x y n.val n.isLt 34 (by revert n; decide)⟩

theorem nop : Statement .nop := ⟨rfl, by decide⟩

end Sys2Proof.Laws.EncodesItsRow
end

