-- ==== Sys2Proof/Tests/Slice0.lean ====
section
/-! SUPPORT. The model's own tests: the checks of WellFormed, the decode of words written out from 30_encoding.md, single
steps with their results taken from the vectors of 95_test_vectors.md (named in each test), and for every obligation
with hypotheses a witness that meets them together. -/

namespace Sys2Proof.Tests

open Sys2Proof Sys2Proof.Machine

/-! States of the tests. -/

/-- The reset state with the word `w` at START_ADDRESS, where pc is. -/
def placed (w : Nat) : State := State.reset.withFetchWord 16 w

/-- Both policies `wrap`. -/
def wrapping (s : State) : State := { s with params := { s.params with oobPolicy := .wrap, stackPolicy := .wrap } }

/-- The host's next and only command is `c`. -/
def issue (c : Command) (s : State) : State := { s with schedule := [c] }

/-- The core is faulted with StackUnderflow. -/
def faulted (s : State) : State := { s with fault := some .stackUnderflow }

/-- The step answers a next state, and it meets the check. -/
def steps (s : State) (check : State → Bool) : Bool :=
  match step s with
  | .next t => check t
  | .fault _ => false
  | .refused _ => false

/-! WellFormed: an ill-formed configuration for each check, and the default. -/

theorem test_default_params_are_well_formed : defaultParams.wellFormed = true := by decide

theorem test_font_of_79_bytes_is_refused :
    ({ defaultParams with fontData := defaultFontData.take 79 } : Params).fontSizeOk = false ∧
    ({ defaultParams with fontData := defaultFontData.take 79 } : Params).wellFormed = false := by decide

theorem test_font_over_the_program_is_refused :
    ({ defaultParams with fontBase := 0x1B1 } : Params).fontBelowStart = false ∧
    ({ defaultParams with fontBase := 0x1B1 } : Params).wellFormed = false := by decide

theorem test_start_at_the_last_byte_is_refused :
    ({ defaultParams with startAddress := 0xFFF } : Params).startInMemory = false ∧
    ({ defaultParams with startAddress := 0xFFF } : Params).wellFormed = false := by decide

theorem test_every_instruction_is_well_formed (i : Instr) : i.wellFormed = true := by cases i <;> rfl

/-! Decode: words of 30_encoding.md R91 to R100, written nibble by nibble; 95_test_vectors.md 2.1. -/

theorem test_decode_family0 :
    decodeWord 0b0000_0000_1110_0000 = .cls ∧ decodeWord 0b0000_0001_0010_0000 = .cls ∧
    decodeWord 0b0000_0000_1110_1110 = .ret ∧ decodeWord 0b0000_1010_1011_1110 = .ret ∧
    decodeWord 0b0000_0000_0000_0001 = .nop ∧ decodeWord 0b0000_1111_1111_1111 = .nop := by decide

theorem test_decode_addresses :
    decodeWord 0b0001_0010_0000_1000 = .jp 0x208 ∧ decodeWord 0b0010_0010_0000_1010 = .call 0x20A ∧
    decodeWord 0b1011_0011_0000_0000 = .jpV0 0x300 ∧ decodeWord 0b1010_0010_0011_0000 = .ldI 0x230 := by decide

theorem test_decode_immediates :
    decodeWord 0b0011_0001_0000_0000 = .seImm 1 0x00 ∧ decodeWord 0b0100_0010_0001_0001 = .sneImm 2 0x11 ∧
    decodeWord 0b0110_1010_0000_0101 = .ldImm 10 0x05 ∧ decodeWord 0b0111_0001_1111_1111 = .addImm 1 0xFF ∧
    decodeWord 0b1100_0011_0000_1111 = .rnd 3 0x0F ∧ decodeWord 0b0011_1111_1000_0000 = .seImm 15 0x80 := by decide

theorem test_decode_register_pairs :
    decodeWord 0b0101_0001_0010_0000 = .seReg 1 2 ∧ decodeWord 0b0101_0001_0010_0111 = .seReg 1 2 ∧
    decodeWord 0b1001_1010_1011_0000 = .sneReg 10 11 ∧ decodeWord 0b1001_1010_1011_0101 = .sneReg 10 11 := by decide

theorem test_decode_family8 :
    decodeWord 0b1000_0001_0010_0000 = .ldReg 1 2 ∧ decodeWord 0b1000_0001_0010_0001 = .orReg 1 2 ∧
    decodeWord 0b1000_0001_0010_0010 = .andReg 1 2 ∧ decodeWord 0b1000_0001_0010_0011 = .xorReg 1 2 ∧
    decodeWord 0b1000_0001_0010_0100 = .addReg 1 2 ∧ decodeWord 0b1000_0001_0010_0101 = .subReg 1 2 ∧
    decodeWord 0b1000_0001_0010_0110 = .shr 1 ∧ decodeWord 0b1000_0001_0010_0111 = .subnReg 1 2 ∧
    decodeWord 0b1000_1010_1011_1110 = .shl 10 ∧ decodeWord 0b1000_1010_1011_1000 = .nop := by decide

theorem test_decode_family_D_and_E :
    decodeWord 0b1101_0001_0010_0101 = .drw 1 2 5 ∧ decodeWord 0b1110_0101_1001_1110 = .skp 5 ∧
    decodeWord 0b1110_0000_1111_1110 = .skp 0 ∧ decodeWord 0b1110_0101_1010_0001 = .sknp 5 ∧
    decodeWord 0b1110_0000_0001_0001 = .sknp 0 ∧ decodeWord 0b1110_0000_1001_1111 = .nop := by decide

theorem test_decode_familyF :
    decodeWord 0b1111_0001_0000_0111 = .getDT 1 ∧ decodeWord 0b1111_0000_0000_1010 = .ldKey 0 ∧
    decodeWord 0b1111_0000_0001_0101 = .setDT 0 ∧ decodeWord 0b1111_0100_0001_1000 = .setST 4 ∧
    decodeWord 0b1111_0010_0001_1110 = .addI 2 ∧ decodeWord 0b1111_0011_0010_1001 = .ldF 3 ∧
    decodeWord 0b1111_0000_0011_0011 = .ldB 0 ∧ decodeWord 0b1111_0001_0101_0101 = .storeRegs 1 ∧
    decodeWord 0b1111_0010_0110_0101 = .loadRegs 2 ∧ decodeWord 0b1111_0000_0110_0110 = .nop := by decide

theorem test_decode_bytes_high_first :
    (match decode [0xA2, 0x30, 0x6A] with | .ok r => r == (.ldI 0x230, [0x6A]) | .error _ => false) = true := by decide

theorem test_decode_truncated :
    (match decode [0xA2] with | .ok _ => false | .error e => e == .truncated) = true := by decide

theorem test_table_word : decodeTableWord 16 0xD125 = some (.drw 1 2 5) ∧ decodeTableWord 16 0xFFFF = some .nop := by
  decide

theorem test_encode_conventional : encode .cls = 0x00E0 ∧ encode .ret = 0x00EE ∧ encode (.skp 5) = 0xE59E ∧
    encode (.sknp 5) = 0xE5A1 ∧ encode (.drw 1 2 5) = 0xD125 ∧ encode (.ldI 0x230) = 0xA230 := by decide

/-! Cycle and fetch (95_test_vectors.md 2.2). -/

/-- S8 -/
theorem test_cycle_fetches_high_byte_first :
    steps (placed 0xA230) (fun t => t.opcode == 0xA230 && t.I == 0x230 && t.pc == 0x202) = true := by decide

/-- Y2 -/
theorem test_fetch_at_odd_pc :
    steps ({ State.reset with pc := 0x201 }.withFetchWord 16 0x6A05) (fun t => t.reg 10 == 5 && t.pc == 0x203) = true := by
  decide

/-- Y3 -/
theorem test_fetch_of_the_last_word :
    steps ({ State.reset with pc := 0xFFE }.withFetchWord 16 0x6A05)
      (fun t => t.reg 10 == 5 && t.pc == 0x1000 && t.faultCode == 0) = true := by decide

/-- Y4 -/
theorem test_fetch_fault :
    steps { State.reset with pc := 0xFFF, opcode := 0x1FFF }
      (fun t => t.faultCode == 1 && t.pc == 0xFFF && t.opcode == 0x1FFF) = true := by decide

/-- Y5 -/
theorem test_fetch_wraps :
    steps ({ wrapping State.reset with pc := 0xFFF }.storeBytes [(0xFFF, 0x6A), (0x000, 0xBC)])
      (fun t => t.opcode == 0x6ABC && t.reg 10 == 0xBC && t.pc == 0x1001) = true := by decide

/-- Y6 -/
theorem test_pc_wraps :
    steps ({ wrapping State.reset with pc := 0xFFFE }.storeBytes [(0xFFE, 0x00), (0xFFF, 0x01)])
      (fun t => t.opcode == 0x0001 && t.pc == 0x0000) = true := by decide

/-- Y7, Y8 -/
theorem test_faulted_core :
    steps (issue .tick (faulted { State.reset with DT := 3 })) (fun t => t.DT == 3 && t.faultCode == 4) = true ∧
    steps (issue .reset (faulted { State.reset with DT := 3 })) (fun t => t.DT == 0 && t.faultCode == 0) = true := by
  decide

/-- Y1 -/
theorem test_nop :
    steps (placed 0x8AB8) (fun t => t.opcode == 0x8AB8 && t.pc == 0x202 && t.V == State.reset.V) = true := by decide

/-! Control flow (2.3). -/

/-- F1 -/
theorem test_cls :
    steps ({ State.reset with video := Video.flip State.reset.video 3 5 }.withFetchWord 16 0x00E0)
      (fun t => !t.pixel 3 5 && t.pc == 0x202) = true := by decide

/-- F2 -/
theorem test_jp : steps ({ State.reset with pc := 0x208 }.withFetchWord 16 0x1208) (fun t => t.pc == 0x208) = true := by
  decide

/-- F4 -/
theorem test_call :
    steps ({ State.reset with pc := 0x202 }.withFetchWord 16 0x220A)
      (fun t => t.stack[0] == 0x204 && t.sp == 1 && t.pc == 0x20A) = true := by decide

/-- F6, F7 -/
theorem test_call_full_stack :
    steps ({ State.reset with sp := 16, pc := 0x300 }.withFetchWord 16 0x2400)
      (fun t => t.faultCode == 3 && t.sp == 16 && t.pc == 0x300) = true ∧
    steps ({ wrapping State.reset with sp := 15, pc := 0x300 }.withFetchWord 16 0x2400)
      (fun t => t.stack[15] == 0x302 && t.sp == 0 && t.pc == 0x400) = true := by decide

/-- F8 -/
theorem test_ret :
    steps ({ State.reset with sp := 1, stack := State.reset.stack.set 0 0x204, pc := 0x20E }.withFetchWord 16 0x00EE)
      (fun t => t.pc == 0x204 && t.sp == 0 && t.stack[0] == 0x204) = true := by decide

/-- F9, F10 -/
theorem test_ret_empty_stack :
    steps (placed 0x00EE) (fun t => t.faultCode == 4 && t.pc == 0x200 && t.opcode == 0) = true ∧
    steps ((wrapping State.reset).withFetchWord 16 0x00EE) (fun t => t.sp == 15 && t.pc == 0) = true := by decide

/-- F12, F13 -/
theorem test_jp_v0 :
    steps ((State.reset.setReg 0 0xFF).withFetchWord 16 0xBFFF) (fun t => t.pc == 0x10FE) = true ∧
    steps ((State.reset.setReg 3 0x10).withFetchWord 16 0xB300) (fun t => t.pc == 0x300) = true := by decide

/-! Conditional skips (2.4). -/

/-- K1, K2 -/
theorem test_se_immediate :
    steps (placed 0x3100) (fun t => t.pc == 0x204) = true ∧
    steps ((State.reset.setReg 1 1).withFetchWord 16 0x3100) (fun t => t.pc == 0x202) = true := by decide

/-- K3, K4 -/
theorem test_sne_immediate :
    steps ((State.reset.setReg 2 0x10).withFetchWord 16 0x4211) (fun t => t.pc == 0x204) = true ∧
    steps ((State.reset.setReg 2 0x11).withFetchWord 16 0x4211) (fun t => t.pc == 0x202) = true := by decide

/-- K5, K6 -/
theorem test_se_register :
    steps (((State.reset.setReg 1 7).setReg 2 7).withFetchWord 16 0x5120) (fun t => t.pc == 0x204) = true ∧
    steps (((State.reset.setReg 1 7).setReg 2 8).withFetchWord 16 0x5127) (fun t => t.pc == 0x202) = true := by decide

/-- K8, K9 -/
theorem test_sne_register :
    steps (((State.reset.setReg 10 1).setReg 11 2).withFetchWord 16 0x9AB0) (fun t => t.pc == 0x204) = true ∧
    steps (((State.reset.setReg 10 2).setReg 11 2).withFetchWord 16 0x9AB5) (fun t => t.pc == 0x202) = true := by decide

/-! ALU (2.5): the state holds a in V1 and b in V2, and V15 is 0x55 where the flag stays. -/

/-- V1 = a, V2 = b, V15 = 0x55, and the word `w` at pc. -/
def alu (a b : Byte) (w : Nat) : State := (((State.reset.setReg 1 a).setReg 2 b).setReg 15 0x55).withFetchWord 16 w

/-- V1 and V15 after the step are `x` and `f`. -/
def alters (s : State) (x f : Byte) : Bool := steps s fun t => t.reg 1 == x && t.reg 15 == f && t.pc == 0x202

/-- A34, A35 -/
theorem test_loads : alters (alu 0x11 0x7E 0x8120) 0x7E 0x55 = true ∧ alters (alu 0x11 0 0x6105) 0x05 0x55 = true := by
  decide

/-- A36, A37 -/
theorem test_add_immediate : alters (alu 5 0 0x71FF) 4 0x55 = true ∧ alters (alu 255 0 0x7101) 0 0x55 = true := by decide

/-- A31, A32, A33 -/
theorem test_bitwise :
    alters (alu 0x0F 0xF0 0x8121) 0xFF 0x55 = true ∧ alters (alu 0x3C 0x0F 0x8122) 0x0C 0x55 = true ∧
    alters (alu 0xFF 0x0F 0x8123) 0xF0 0x55 = true := by decide

/-- A1, A3, A4 -/
theorem test_add :
    alters (alu 250 10 0x8124) 4 1 = true ∧ alters (alu 200 55 0x8124) 255 0 = true ∧
    alters (alu 200 56 0x8124) 0 1 = true := by decide

/-- A9, A10, A11 -/
theorem test_sub :
    alters (alu 5 10 0x8125) 251 0 = true ∧ alters (alu 10 5 0x8125) 5 1 = true ∧
    alters (alu 7 7 0x8125) 0 0 = true := by decide

/-- A16, A17, A18 -/
theorem test_subn :
    alters (alu 5 10 0x8127) 5 1 = true ∧ alters (alu 10 5 0x8127) 251 0 = true ∧
    alters (alu 7 7 0x8127) 0 0 = true := by decide

/-- A21, A25; V[y] is not read -/
theorem test_shr : alters (alu 0x05 0xFF 0x8126) 0x02 1 = true ∧ alters (alu 0x80 0xFF 0x8126) 0x40 0 = true := by decide

/-- A26, A28 -/
theorem test_shl : alters (alu 0x81 0xFF 0x812E) 0x02 1 = true ∧ alters (alu 0x7F 0xFF 0x812E) 0xFE 0 = true := by decide

/-- A40, A41, A44: the flag wins -/
theorem test_flag_wins :
    steps (((State.reset.setReg 15 0xFF).setReg 2 2).withFetchWord 16 0x8F24) (fun t => t.reg 15 == 1) = true ∧
    steps (((State.reset.setReg 15 9).setReg 2 3).withFetchWord 16 0x8F25) (fun t => t.reg 15 == 1) = true ∧
    steps ((State.reset.setReg 15 1).withFetchWord 16 0x8F0E) (fun t => t.reg 15 == 0) = true := by decide

/-- A46: V15 as an operand is read before it is written -/
theorem test_operands_are_latched :
    steps (((State.reset.setReg 1 0x10).setReg 15 1).withFetchWord 16 0x81F5)
      (fun t => t.reg 1 == 0x0F && t.reg 15 == 1) = true := by decide

/-! Memory and index (2.6). -/

/-- M4 -/
theorem test_add_index_wraps :
    steps ({ State.reset.setReg 2 1 with I := 0xFFFF }.withFetchWord 16 0xF21E)
      (fun t => t.I == 0 && t.reg 15 == 0) = true := by decide

/-- M5, M6 -/
theorem test_font_address :
    steps ((State.reset.setReg 3 7).withFetchWord 16 0xF329) (fun t => t.I == 0x073) = true ∧
    steps ((State.reset.setReg 3 0xFF).withFetchWord 16 0xF329) (fun t => t.I == 0x54B) = true := by decide

/-- M7 -/
theorem test_store_registers :
    steps ({ (State.reset.setReg 0 0x62).setReg 1 0x77 with I := 0x300 }.withFetchWord 16 0xF155)
      (fun t => t.readByte 0x300 == 0x62 && t.readByte 0x301 == 0x77 && t.readByte 0x302 == 0 && t.I == 0x300) = true := by
  decide

/-- M10 -/
theorem test_store_registers_out_of_range :
    steps ({ State.reset.setReg 0 9 with I := 0xFF1 }.withFetchWord 16 0xFF55)
      (fun t => t.faultCode == 2 && t.readByte 0xFF1 == 0 && t.pc == 0x200) = true := by decide

/-- M8 -/
theorem test_load_registers :
    steps (({ State.reset with I := 0x300 }.storeBytes [(0x300, 2), (0x301, 3), (0x302, 4)]).withFetchWord 16 0xF265)
      (fun t => t.reg 0 == 2 && t.reg 1 == 3 && t.reg 2 == 4 && t.reg 3 == 0 && t.I == 0x300) = true := by decide

/-- M12 -/
theorem test_load_registers_wraps :
    steps (({ wrapping State.reset with I := 0xFFF }.storeBytes [(0xFFF, 0xAA), (0x000, 0xBB)]).withFetchWord 16 0xF165)
      (fun t => t.reg 0 == 0xAA && t.reg 1 == 0xBB) = true := by decide

/-- M13 -/
theorem test_bcd :
    steps ({ State.reset.setReg 3 234 with I := 0x300 }.withFetchWord 16 0xF333)
      (fun t => t.readByte 0x300 == 2 && t.readByte 0x301 == 3 && t.readByte 0x302 == 4) = true := by decide

/-- M14, M15 -/
theorem test_bcd_at_the_end_of_memory :
    steps ({ State.reset.setReg 0 255 with I := 0xFFE }.withFetchWord 16 0xF033)
      (fun t => t.faultCode == 2 && t.readByte 0xFFE == 0 && t.pc == 0x200) = true ∧
    steps ({ wrapping (State.reset.setReg 0 255) with I := 0xFFE }.withFetchWord 16 0xF033)
      (fun t => t.readByte 0xFFE == 2 && t.readByte 0xFFF == 5 && t.readByte 0x000 == 5) = true := by decide

/-! Random, input, timers (2.7 to 2.9). -/

/-- N1, N4 -/
theorem test_rnd :
    steps (issue (.step 0xA7) (placed 0xC30F)) (fun t => t.reg 3 == 0x07) = true ∧
    steps (issue (.step 0xFF) (placed 0xCF0F)) (fun t => t.reg 15 == 0x0F) = true := by decide

/-- V5 = v, key 3 pressed, and the word `w` at pc. -/
def keyed (v : Byte) (w : Nat) : State := ((State.reset.setReg 5 v).keySet 3 true).withFetchWord 16 w

/-- I1, I2, I5 -/
theorem test_skp :
    steps (keyed 3 0xE59E) (fun t => t.pc == 0x204) = true ∧ steps (keyed 4 0xE59E) (fun t => t.pc == 0x202) = true ∧
    steps (keyed 0x13 0xE59E) (fun t => t.faultCode == 5 && t.pc == 0x200) = true := by decide

/-- I3, I4, and I6 for SKNP -/
theorem test_sknp :
    steps (keyed 4 0xE5A1) (fun t => t.pc == 0x204) = true ∧ steps (keyed 3 0xE5A1) (fun t => t.pc == 0x202) = true ∧
    steps (wrapping (keyed 0x13 0xE5A1)) (fun t => t.pc == 0x202) = true := by decide

/-- I7 -/
theorem test_key_wait : steps (placed 0xF00A) (fun t => t.pc == 0x200 && t.opcode == 0xF00A) = true := by decide

/-- I8, I9 -/
theorem test_key_stored :
    steps (((State.reset.keySet 7 true).keySet 3 true).withFetchWord 16 0xF00A)
      (fun t => t.reg 0 == 3 && t.pc == 0x202) = true ∧
    steps ((State.reset.keySet 15 true).withFetchWord 16 0xFA0A) (fun t => t.reg 10 == 15 && t.pc == 0x202) = true := by
  decide

/-- T1, T2, T3 -/
theorem test_timer_loads :
    steps ((State.reset.setReg 0 3).withFetchWord 16 0xF015) (fun t => t.DT == 3) = true ∧
    steps ({ State.reset with DT := 2 }.withFetchWord 16 0xF107) (fun t => t.reg 1 == 2 && t.DT == 2) = true ∧
    steps ((State.reset.setReg 4 0x1E).withFetchWord 16 0xF418) (fun t => t.ST == 0x1E && t.soundOn) = true := by decide

/-- T4, T5 -/
theorem test_tick :
    steps (issue .tick { State.reset with DT := 3, ST := 1 }) (fun t => t.DT == 2 && t.ST == 0 && !t.soundOn) = true ∧
    steps (issue .tick State.reset) (fun t => t.DT == 0 && t.ST == 0) = true := by decide

/-- The host's other events (60_exceptions.md R230, R237). -/
theorem test_events :
    steps (issue (.keySet 7 true) State.reset) (fun t => t.key 7 && !t.key 3) = true ∧
    steps (issue (.memLoad 0x300 0x5A) State.reset) (fun t => t.readByte 0x300 == 0x5A) = true ∧
    steps (issue (.memLoad 0x050 0xF0) State.reset) (fun t => t.mem == []) = true := by decide

/-! Draw (2.10): I = 0x300, V1 and V2 the origin, V15 = 1. -/

/-- The sprite bytes at 0x300, the origin (x, y), V15 = 1, and the word `w` at pc. -/
def sprite (rows : List Host.Cell) (x y : Byte) (w : Nat) : State :=
  ({ (((State.reset.setReg 1 x).setReg 2 y).setReg 15 1) with I := 0x300 }.storeBytes rows).withFetchWord 16 w

/-- W3, W4: pixels wrap -/
theorem test_draw_wraps_columns :
    steps (sprite [(0x300, 0xFF)] 124 32 0xD121)
      (fun t => t.pixel 0 60 && t.pixel 0 63 && t.pixel 0 0 && t.pixel 0 3 && !t.pixel 0 4 && !t.pixel 0 59 &&
        !t.pixel 1 60 && t.reg 15 == 0) = true := by decide

/-- W5: rows wrap -/
theorem test_draw_wraps_rows :
    steps (sprite [(0x300, 0x80), (0x301, 0x80)] 0 31 0xD122)
      (fun t => t.pixel 31 0 && t.pixel 0 0 && !t.pixel 1 0 && t.reg 15 == 0) = true := by decide

/-- W9, W8: a collision is an on pixel turned off -/
theorem test_draw_collision :
    steps ({ sprite [(0x300, 0xC0)] 0 0 0xD121 with video := Video.flip State.reset.video 0 0 })
      (fun t => !t.pixel 0 0 && t.pixel 0 1 && t.reg 15 == 1) = true ∧
    steps ({ sprite [(0x300, 0x40)] 0 0 0xD121 with video := Video.flip State.reset.video 0 0 })
      (fun t => t.pixel 0 0 && t.pixel 0 1 && t.reg 15 == 0) = true := by decide

/-- W10, W11, W12 -/
theorem test_draw_range_and_origin :
    steps ({ sprite [] 0 0 0xD129 with I := 0xFF8 }) (fun t => t.faultCode == 2 && t.reg 15 == 1) = true ∧
    steps ({ sprite [] 0 0 0xD128 with I := 0xFF8 }) (fun t => t.faultCode == 0 && t.reg 15 == 0) = true ∧
    steps ((sprite [(0x300, 0x80)] 0 0 0xDF21).setReg 15 5) (fun t => t.pixel 0 5 && t.reg 15 == 0) = true := by decide

/-- Reset (10_state.md R34) and the font of 20_memory.md R61: glyph 0 at 0x050, the last byte of glyph F at 0x09F. -/
theorem test_reset :
    State.reset.pc = 0x200 ∧ State.reset.sp = 0 ∧ State.reset.readByte 0x050 = 0xF0 ∧
    State.reset.readByte 0x051 = 0x90 ∧ State.reset.readByte 0x09F = 0x80 ∧ State.reset.readByte 0x0A0 = 0 ∧
    State.reset.readByte 0x200 = 0 := by decide

/-! Witnesses: for each obligation with hypotheses, a concrete state and operands that meet them together, at the
boundary of each clause. -/

theorem witness_DecodeFollowsOpcodeMap :
    (⟨34, 0xF000, 0xD000⟩ : OpcodeRow) ∈ opcodeMap ∧ OpcodeRow.matchesWord ⟨34, 0xF000, 0xD000⟩ 0xDFFF = true ∧
    (∀ row ∈ opcodeMap, row.matchesWord 0x0001 = false) := by decide

theorem witness_DecodeIgnoresBits :
    ((0x00E0 : Word) &&& 0xF00F = 0x0FF0 &&& 0xF00F ∧ decodeWord 0x00E0 = .cls) ∧
    ((0x0000 : Word) &&& 0xF00F = 0x0FF0 &&& 0xF00F ∧ decodeWord 0x0000 = .cls) ∧
    ((0x000E : Word) &&& 0xF00F = 0x0FFE &&& 0xF00F ∧ decodeWord 0x000E = .ret) ∧
    ((0x5120 : Word) &&& 0xFFF0 = 0x512F &&& 0xFFF0 ∧ decodeWord 0x5120 = .seReg 1 2) ∧
    ((0x9AB0 : Word) &&& 0xFFF0 = 0x9ABF &&& 0xFFF0 ∧ decodeWord 0x9AB0 = .sneReg 10 11) ∧
    ((0x8A06 : Word) &&& 0xFF0F = 0x8AF6 &&& 0xFF0F ∧ decodeWord 0x8A06 = .shr 10) ∧
    ((0x8A0E : Word) &&& 0xFF0F = 0x8AFE &&& 0xFF0F ∧ decodeWord 0x8A0E = .shl 10) ∧
    ((0xE59E : Word) &&& 0xFF0F = 0xE5FE &&& 0xFF0F ∧ decodeWord 0xE59E = .skp 5) ∧
    ((0xE5A1 : Word) &&& 0xFF0F = 0xE501 &&& 0xFF0F ∧ decodeWord 0xE5A1 = .sknp 5) ∧
    ((0x8AB8 : Word) &&& 0xF00F = 0x8FF8 &&& 0xF00F ∧ tField 0x8AB8 ≠ 0xF ∧ decodeWord 0x8AB8 = .nop) ∧
    ((0xF066 : Word) &&& 0xF0FF = 0xFF66 &&& 0xF0FF ∧ decodeWord 0xF066 = .nop) := by decide

/-- A STEP of the schedule. -/
theorem takes_scheduled_step (s : State) (r : Byte) :
    TakesStep (issue (.step r) s) { s with schedule := [] } r := .inl ⟨[], rfl, rfl⟩

/-- A STEP with the host's free byte, from reset. -/
theorem takes_unscheduled_step :
    TakesStep State.reset { State.reset with draws := 1 } (Config.hostByte 0) := .inr ⟨rfl, rfl, rfl⟩

/-- An event of the schedule. -/
theorem takes_event (s : State) (c : Command) : TakesEvent (issue c s) { s with schedule := [] } c := ⟨[], rfl, rfl⟩

theorem witness_ResetCommandResetsEverything :
    TakesEvent (issue .reset (faulted State.reset)) { faulted State.reset with schedule := [] } .reset :=
  takes_event _ _

/-- The limits of 00_scope.md R5: FONT_BASE + 80 = START_ADDRESS = 0xFFE. -/
theorem witness_ResetStateMeetsInvariant :
    ({ defaultParams with startAddress := 0xFFE, fontBase := 0xFAE } : Params).wellFormed = true := by decide

theorem witness_AddressesResolveByPolicy :
    State.reset.params.oobPolicy = .fault ∧ (wrapping State.reset).params.oobPolicy = .wrap ∧ 0x1000 > 0xFFF ∧
    (match State.reset.ea .data 0xFFF with | .ok a => a == 0xFFF | .error _ => false) = true ∧
    (match State.reset.ea .data 0x1000 with | .ok _ => false | .error c => c == .dataAddressRange) = true ∧
    (match (wrapping State.reset).ea .fetch 0x1000 with | .ok a => a == 0 | .error _ => false) = true := by decide

theorem witness_KeyIndexResolvesByPolicy :
    State.reset.params.oobPolicy = .fault ∧ (wrapping State.reset).params.oobPolicy = .wrap ∧
    (15 : Byte).toNat ≤ 15 ∧ (16 : Byte).toNat > 15 ∧
    (match State.reset.keyIndex 15 with | .ok k => k == 15 | .error _ => false) = true ∧
    (match State.reset.keyIndex 16 with | .ok _ => false | .error c => c == .keyIndexRange) = true ∧
    (match (wrapping State.reset).keyIndex 16 with | .ok k => k == 0 | .error _ => false) = true := by decide

theorem witness_MemoryReadsBackWrites :
    Memory.wf (placed 0xA230).params (placed 0xA230).mem = true ∧ 0xFFF ≤ 0xFFF ∧
    ((placed 0xA230).writeByte 0xFFF 7).readByte 0xFFF = 7 ∧ ((placed 0xA230).writeByte 0xFFF 7).readByte 0x200 = 0xA2 := by
  decide

theorem witness_CanonicalMemoriesAreEqual :
    Memory.wf defaultParams [(0x200, 0xA2), (0x201, 0x30)] = true ∧
    Memory.wf defaultParams (Memory.write defaultParams [(0x200, 0xA2)] 0x201 0x30) = true ∧
    ∀ a, Memory.read defaultParams [(0x200, 0xA2), (0x201, 0x30)] a =
      Memory.read defaultParams (Memory.write defaultParams [(0x200, 0xA2)] 0x201 0x30) a :=
  ⟨by decide, by decide, fun _ => rfl⟩

theorem witness_FetchReadsTwoBytesAtPc :
    State.reset.params.oobPolicy = .fault ∧ ({ State.reset with pc := 0xFFE } : State).pc.toNat ≤ 0xFFE ∧
    ({ State.reset with pc := 0xFFF } : State).pc.toNat > 0xFFE ∧ (wrapping State.reset).params.oobPolicy = .wrap := by
  decide

/-- The three cases: a faulted core, a fetch that raises, a fetch that succeeds with each outcome of its handler. -/
theorem witness_StepRunsDecodedInstruction :
    (faulted State.reset).fault ≠ none ∧ State.reset.fault = none ∧
    (∃ c, ({ State.reset with pc := 0xFFF } : State).ea .fetch
      (({ State.reset with pc := 0xFFF } : State).pc.toNat + 1) = .error c) ∧
    (∃ a0 a1, (placed 0xA230).ea .fetch (placed 0xA230).pc.toNat = .ok a0 ∧
      (placed 0xA230).ea .fetch ((placed 0xA230).pc.toNat + 1) = .ok a1 ∧
      decode [(placed 0xA230).readByte a0, (placed 0xA230).readByte a1] = .ok (.ldI 0x230, [])) ∧
    (∃ t, exec (.ldI 0x230) State.reset = .next t ∧ t.fault = none) ∧
    (∃ t, exec .ret State.reset = .next t ∧ t.fault = some .stackUnderflow) ∧
    exec .ret { State.reset with sp := 18 } = .fault .stackPointerRange :=
  ⟨by decide, rfl, ⟨_, rfl⟩, ⟨_, _, rfl, rfl, rfl⟩, ⟨_, rfl, rfl⟩, ⟨_, rfl, rfl⟩, rfl⟩

/-- A STEP that does not fault, and one that does. -/
theorem witness_PcFollowsTheTable :
    TakesStep (issue (.step 0) (placed 0xA230)) { placed 0xA230 with schedule := [] } 0 ∧
    (placed 0xA230).fault = none ∧ (placed 0xA230).fetchWord = .ok 0xA230 ∧
    (∃ t, step (issue (.step 0) (placed 0xA230)) = .next t ∧ t.fault = none) ∧
    (∃ t, step (issue (.step 0) (placed 0x00EE)) = .next t ∧ t.fault = some .stackUnderflow) :=
  ⟨takes_scheduled_step _ _, rfl, rfl, ⟨_, rfl, rfl⟩, ⟨_, rfl, rfl⟩⟩

/-- The five causes at the first value that raises each (witness_FaultsArePrecise too). -/
theorem witness_StepFaultsExactlyAsListed :
    stepFault { State.reset with pc := 0xFFF } = some .fetchAddressRange ∧
    stepFault { placed 0xD121 with I := 0x1000 } = some .dataAddressRange ∧
    stepFault { placed 0xF033 with I := 0xFFE } = some .dataAddressRange ∧
    stepFault { placed 0xF155 with I := 0xFFF } = some .dataAddressRange ∧
    stepFault { placed 0x2400 with sp := 16 } = some .stackOverflow ∧
    stepFault (placed 0x00EE) = some .stackUnderflow ∧
    stepFault ((placed 0xE59E).setReg 5 16) = some .keyIndexRange ∧
    stepFault { placed 0xF033 with I := 0xFFD } = none ∧ stepFault ((placed 0xE59E).setReg 5 15) = none := by decide

theorem witness_FaultsArePrecise :
    TakesStep (issue (.step 0) (placed 0x00EE)) { placed 0x00EE with schedule := [] } 0 ∧ (placed 0x00EE).fault = none ∧
    ∃ t, step (issue (.step 0) (placed 0x00EE)) = .next t ∧ t.fault = some .stackUnderflow :=
  ⟨takes_scheduled_step _ _, rfl, _, rfl, rfl⟩

theorem witness_FaultedCoreObeysOnlyReset :
    (issue (.step 0) (faulted State.reset)).fault ≠ none ∧
    TakesStep (issue (.step 0) (faulted State.reset)) { faulted State.reset with schedule := [] } 0 ∧
    TakesEvent (issue .tick (faulted State.reset)) { faulted State.reset with schedule := [] } .tick ∧
    (Command.tick ≠ .reset) ∧
    TakesEvent (issue .reset (faulted State.reset)) { faulted State.reset with schedule := [] } .reset :=
  ⟨by decide, takes_scheduled_step _ _, takes_event _ _, by decide, takes_event _ _⟩

theorem witness_WrapPoliciesNeverLatch :
    (wrapping (placed 0x00EE)).params.oobPolicy = .wrap ∧ (wrapping (placed 0x00EE)).params.stackPolicy = .wrap ∧
    (wrapping (placed 0x00EE)).fault = none ∧ ∃ t, step (wrapping (placed 0x00EE)) = .next t :=
  ⟨rfl, rfl, rfl, _, rfl⟩

/-- The invariant at its limits: a full stack, a latched fault (witness_EveryStepGoesOn and
witness_PlacedWordIsFetchedNext too). -/
theorem witness_StepKeepsInvariant :
    State.Inv { placed 0x2400 with sp := 16 } ∧ State.Inv (faulted State.reset) ∧
    State.Inv { wrapping (placed 0x2400) with sp := 15 } ∧ ¬ State.Inv { wrapping State.reset with sp := 16 } ∧
    (∃ t, step { placed 0x2400 with sp := 16 } = .next t) :=
  ⟨by decide, by decide, by decide, by decide, _, rfl⟩

theorem witness_EveryStepGoesOn : State.Inv { placed 0x2400 with sp := 16 } := by decide

theorem witness_PlacedWordIsFetchedNext : State.Inv { State.reset with pc := 0xFFF } ∧ 0xFFFF < 65536 := by decide

/-- A running and a faulted core under each event. -/
theorem witness_TickCountsTimersDown :
    TakesEvent (issue .tick State.reset) { State.reset with schedule := [] } .tick ∧ State.reset.fault = none ∧
    TakesEvent (issue .tick (faulted State.reset)) { faulted State.reset with schedule := [] } .tick ∧
    (faulted State.reset).fault ≠ none :=
  ⟨takes_event _ _, rfl, takes_event _ _, by decide⟩

theorem witness_KeySetSetsOneKey :
    TakesEvent (issue (.keySet 15 true) State.reset) { State.reset with schedule := [] } (.keySet 15 true) ∧
    State.reset.fault = none ∧
    TakesEvent (issue (.keySet 0 true) (faulted State.reset)) { faulted State.reset with schedule := [] }
      (.keySet 0 true) ∧ (faulted State.reset).fault ≠ none :=
  ⟨takes_event _ _, rfl, takes_event _ _, by decide⟩

theorem witness_MemLoadWritesOneByte :
    TakesEvent (issue (.memLoad 0xFFF 7) State.reset) { State.reset with schedule := [] } (.memLoad 0xFFF 7) ∧
    Memory.wf State.reset.params State.reset.mem = true ∧ State.reset.fault = none ∧
    TakesEvent (issue (.memLoad 0 7) (faulted State.reset)) { faulted State.reset with schedule := [] } (.memLoad 0 7) ∧
    (faulted State.reset).fault ≠ none :=
  ⟨takes_event _ _, rfl, rfl, takes_event _ _, by decide⟩

/-- A step that changes a key, one that changes DT by TICK and one by LD DT, Vx, and the same for ST. -/
theorem witness_OnlyTheirCommandsChangeKeysAndTimers :
    steps (issue (.keySet 3 true) State.reset) (fun t => t.keypad != State.reset.keypad) = true ∧
    steps (issue .tick { State.reset with DT := 1, ST := 1 }) (fun t => t.DT != 1 && t.ST != 1) = true ∧
    steps ((placed 0xF015).setReg 0 1) (fun t => t.DT != 0) = true ∧
    steps ((placed 0xF018).setReg 0 1) (fun t => t.ST != 0) = true := by decide

/-- An ADD, which no exception of a clause names, and for pc and the latch the instructions each clause excepts. -/
theorem witness_InstructionsWriteOnlyWhatTheirRulesList :
    (∃ t, exec (.addReg 1 2) State.reset = .next t) ∧ writesPc (.addReg 1 2) = false ∧ mayRaise (.addReg 1 2) = false ∧
    writesPc (.ldKey 0) = true ∧ mayRaise (.ldKey 0) = false ∧ mayRaise (.ldB 0) = true ∧ writesPc (.ldB 0) = false ∧ writesReg (.addReg 1 2) 3 = false ∧
    writesReg (.addReg 1 2) 15 = true ∧ writesReg (.loadRegs 14) 14 = true ∧ writesReg (.loadRegs 14) 15 = false :=
  ⟨⟨_, rfl⟩, by decide⟩

theorem witness_FlagInstructionsLeaveZeroOrOne :
    State.reset.fault = none ∧ (∃ t, exec (.addReg 15 15) State.reset = .next t ∧ t.fault = none) ∧
    (∃ t, exec (.drw 1 2 0) State.reset = .next t ∧ t.fault = none) :=
  ⟨rfl, ⟨_, rfl, rfl⟩, ⟨_, rfl, rfl⟩⟩

theorem witness_OnlyRndReadsTheRandomByte :
    (∀ x kk, Instr.ldImm 10 5 ≠ .rnd x kk) ∧ ∃ t, exec (.ldImm 10 5) State.reset = .next t :=
  ⟨by simp, _, rfl⟩

theorem witness_EndedRunStaysPut :
    TakesStep (issue (.step 0) (placed 0x1200)) { placed 0x1200 with schedule := [] } 0 ∧
    (issue (.step 0) (placed 0x1200)).ended = true :=
  ⟨takes_scheduled_step _ _, by decide⟩

/-- Program P5 of 95_test_vectors.md, when its fourth instruction runs (pc is 0x208, I is 0x208), and the same for
LD B. -/
theorem witness_StoresAreSeenByTheNextFetch :
    let s : State := { (State.reset.setReg 0 0x62).setReg 1 0x77 with I := 0x208, pc := 0x208 }
    Memory.wf s.params s.mem = true ∧ s.fault = none ∧
    (∃ t w, exec (.storeRegs 1) s = .next t ∧ t.fault = none ∧ t.fetchWord = .ok w ∧ w = 0x6277) ∧
    (∃ t w, exec (.ldB 1) s = .next t ∧ t.fault = none ∧ t.fetchWord = .ok w ∧ w = 0x0101) ∧
    s.ea .data (s.I.toNat + 0) = .ok 0x208 ∧ s.ea .fetch s.pc.toNat = .ok 0x208 ∧
    s.ea .data (s.I.toNat + 1) = .ok 0x209 ∧ s.ea .fetch (s.pc.toNat + 1) = .ok 0x209 :=
  ⟨rfl, rfl, ⟨_, _, rfl, rfl, rfl, by decide⟩, ⟨_, _, rfl, rfl, rfl, by decide⟩, rfl, rfl, rfl, rfl⟩

/-- Each clause at the limits of sp. -/
theorem witness_RetPopsThePc :
    State.reset.params.stackPolicy = .fault ∧ State.reset.sp.toNat = 0 ∧
    ({ State.reset with sp := 1 } : State).sp.toNat = 1 ∧ ({ State.reset with sp := 16 } : State).sp.toNat = 16 ∧
    (15 : Nibble).val = 16 - 1 ∧ (wrapping State.reset).params.stackPolicy = .wrap ∧
    ({ wrapping State.reset with sp := 15 } : State).sp.toNat ≤ 15 ∧ (15 : Nibble).val = (0 + 15) % 16 := by decide

theorem witness_CallPushesThePc :
    State.reset.params.stackPolicy = .fault ∧ ({ State.reset with sp := 16 } : State).sp.toNat = 16 ∧
    ({ State.reset with sp := 15 } : State).sp.toNat ≤ 15 ∧ (wrapping State.reset).params.stackPolicy = .wrap := by decide

theorem witness_StackPointerWithoutSlotStops :
    spMax State.reset.params < ({ State.reset with sp := 17 } : State).sp.toNat ∧
    spMax (wrapping State.reset).params < ({ wrapping State.reset with sp := 16 } : State).sp.toNat ∧
    State.reset.params.stackPolicy = .fault ∧ 16 < ({ State.reset with sp := 17 } : State).sp.toNat := by decide

theorem witness_ReturnComesBackAfterCall :
    State.Inv { wrapping State.reset with sp := 15 } ∧ (wrapping State.reset).fault = none ∧
    ∃ t, exec (.call 0x400) { wrapping State.reset with sp := 15 } = .next t ∧ t.fault = none :=
  ⟨by decide, rfl, _, rfl, rfl⟩

theorem witness_NopOnlyAdvancesThePc :
    TakesStep (issue (.step 0) (placed 0x8AB8)) { placed 0x8AB8 with schedule := [] } 0 ∧
    (placed 0x8AB8).fault = none ∧ (placed 0x8AB8).fetchWord = .ok 0x8AB8 ∧
    (∀ row ∈ opcodeMap, row.matchesWord 0x8AB8 = false) :=
  ⟨takes_scheduled_step _ _, rfl, rfl, by decide⟩

/-- Registers other than 15, and a register that is neither x nor 15 (AddSetsCarry, SubtractionsSetStrictFlag,
ShiftsReportTheLostBit). -/
theorem witness_flag_instructions : (14 : Nibble) ≠ 15 ∧ (0 : Nibble) ≠ 14 ∧ (0 : Nibble) ≠ 15 := by decide

/-- The last block in reach and the first out of reach (RegisterBlockStores, RegisterBlockLoads, BcdStoresThreeDigits,
DrawFlipsCoveredPixels, DegenerateSpritesDrawNothing). -/
theorem witness_blocks :
    BlockInReach { State.reset with I := 0xFF0 } 16 ∧ ¬ BlockInReach { State.reset with I := 0xFF1 } 16 ∧
    BlockInReach { State.reset with I := 0xFFD } 3 ∧ ¬ BlockInReach { State.reset with I := 0xFFE } 3 ∧
    BlockInReach { State.reset with I := 0xFFFF } 0 ∧ BlockInReach { wrapping State.reset with I := 0xFFFF } 16 ∧
    Memory.wf State.reset.params State.reset.mem = true := by
  refine ⟨.inr (.inr ?_), ?_, .inr (.inr ?_), ?_, .inr (.inl rfl), .inl rfl, rfl⟩
  · decide
  · simp [BlockInReach, State.reset, State.resetWith, defaultParams]
  · decide
  · simp [BlockInReach, State.reset, State.resetWith, defaultParams]

/-- An address of a block, and one outside it. -/
theorem witness_block_addresses :
    ({ State.reset with I := 0xFF0 } : State).ea .data (0xFF0 + 15) = .ok 0xFFF ∧
    (∀ r : Nibble, r ≤ 15 → ({ State.reset with I := 0xFF0 } : State).ea .data (0xFF0 + r.val) ≠ .ok 0) ∧
    (15 : Nibble) ≤ 15 ∧ (14 : Nibble) < 15 := by
  refine ⟨rfl, fun r _ => ?_, by decide⟩
  rw [State.ea_low _ (by omega)]
  simp

theorem witness_KeySkipsReadTheKeypad :
    ((State.reset.setReg 5 15).reg 5).toNat ≤ 15 ∧ (15 : Nibble).val = ((State.reset.setReg 5 15).reg 5).toNat % 16 ∧
    (wrapping State.reset).params.oobPolicy = .wrap ∧ ((State.reset.setReg 5 16).reg 5).toNat > 15 ∧
    (State.reset.setReg 5 16).params.oobPolicy = .fault := by decide

theorem witness_KeyWaitStoresLowestKey :
    (∀ k, State.reset.key k = false) ∧ (State.reset.keySet 15 true).key 15 = true ∧
    (∀ j, j < 15 → (State.reset.keySet 15 true).key j = false) := by decide

/-- A covered pixel, and one that no bit of the sprite falls on: one set bit at (0, 0). -/
theorem witness_DrawFlipsCoveredPixels :
    SpriteCovers (State.reset.writeByte 0 0x80) 0 0 1 0 0 ∧ ¬ SpriteCovers (State.reset.writeByte 0 0x80) 0 0 1 1 0 := by
  refine ⟨⟨0, 0, 0, by decide, by decide, rfl, rfl, rfl, by decide⟩, ?_⟩
  rintro ⟨r, c, a, hr, -, hy, -⟩
  have : r = 0 := by omega
  subst this
  exact absurd hy (by decide)

theorem witness_DegenerateSpritesDrawNothing :
    BlockInReach State.reset (15 : Nibble).val ∧
    ∀ r a, r < (15 : Nibble).val → State.reset.ea .data (State.reset.I.toNat + r) = .ok a → State.reset.readByte a = 0 := by
  refine ⟨.inr (.inr (by decide)), fun r a hr ha => ?_⟩
  have hl : State.reset.I.toNat + r ≤ 0xFFF := by
    have : State.reset.I.toNat = 0 := rfl
    have : (15 : Nibble).val = 15 := rfl
    omega
  rw [State.ea_low _ hl] at ha
  cases ha
  have : r < 15 := hr
  interval_cases r <;> rfl

/-- One set bit at (0, 0), drawn twice on a clear screen, also where y is 15. -/
theorem witness_DrawingTwiceErasesTheSprite :
    BlockInReach (State.reset.writeByte 0 0x80) (1 : Nibble).val ∧
    (∀ py px, (State.reset.writeByte 0 0x80).pixel py px = false) ∧
    ∃ t u, exec (.drw 1 15 1) (State.reset.writeByte 0 0x80) = .next t ∧
      (t.reg 1).toNat % 64 = ((State.reset.writeByte 0 0x80).reg 1).toNat % 64 ∧
      (t.reg 15).toNat % 32 = ((State.reset.writeByte 0 0x80).reg 15).toNat % 32 ∧
      exec (.drw 1 15 1) t = .next u :=
  ⟨.inr (.inr (by decide)), fun py px => by simp [State.pixel, Video.get, State.reset, State.resetWith],
    _, _, rfl, by decide, by decide, rfl⟩

end Sys2Proof.Tests
end

/-! No instruction writes what its rule does not list (00_scope.md R6). An instruction answers one of a few updates of the
state; each update is checked once against the tables of Safety.lean, and each instruction then names its update. -/

namespace Sys2Proof.Machine

variable {i : Instr} {s t : State}

/-- `t` differs from `s` only in state that the rule of `i` lists (00_scope.md R6). A field left out when an instance is
built is one that the update leaves as it is by definition. -/
structure WritesOnlyListed (i : Instr) (s t : State) : Prop where
  reg : ∀ r, writesReg i r = false → t.reg r = s.reg r := by intros; rfl
  mem : (∀ x, i ≠ .storeRegs x ∧ i ≠ .ldB x) → t.mem = s.mem := by intros; rfl
  video : i ≠ .cls → (∀ x y n, i ≠ .drw x y n) → t.video = s.video := by intros; rfl
  stack : (∀ a, i ≠ .call a) → t.stack = s.stack := by intros; rfl
  sp : (∀ a, i ≠ .call a) → i ≠ .ret → t.sp = s.sp := by intros; rfl
  I : (∀ a, i ≠ .ldI a) → (∀ x, i ≠ .addI x ∧ i ≠ .ldF x) → t.I = s.I := by intros; rfl
  DT : (∀ x, i ≠ .setDT x) → t.DT = s.DT := by intros; rfl
  ST : (∀ x, i ≠ .setST x) → t.ST = s.ST := by intros; rfl
  pc : writesPc i = false → t.pc = s.pc := by intros; rfl
  fault : mayRaise i = false → t.fault = s.fault := by intros; rfl
  opcode : t.opcode = s.opcode := by rfl
  keypad : t.keypad = s.keypad := by rfl
  params : t.params = s.params := by rfl
  rnd : t.rnd = s.rnd := by rfl
  draws : t.draws = s.draws := by rfl
  schedule : t.schedule = s.schedule := by rfl

/-- Several stores, as an update of memory. -/
theorem State.storeBytes_eq_with_mem (s : State) (cells : List Host.Cell) :
    s.storeBytes cells = { s with mem := (s.storeBytes cells).mem } := by
  apply State.ext <;> simp

/-- A block load, as an update of the general registers. -/
theorem State.setRegsFrom_eq_with_V (s : State) (k : Nat) (bs : List Byte) :
    s.setRegsFrom k bs = { s with V := (s.setRegsFrom k bs).V } := by
  apply State.ext <;> simp

namespace WritesOnlyListed

/-- A listed register is not one that the instruction leaves alone. -/
theorem ne_of_writesReg {x r : Nibble} (hx : writesReg i x = true) (hr : writesReg i r = false) : r ≠ x := by
  rintro rfl
  simp [hx] at hr

theorem of_setReg (x : Nibble) (b : Byte) (hx : writesReg i x = true) : WritesOnlyListed i s (s.setReg x b) where
  reg r hr := by simp [ne_of_writesReg hx hr]

theorem of_writeWithFlag (x : Nibble) (b f : Byte) (hx : writesReg i x = true) (hf : writesReg i flagReg = true) :
    WritesOnlyListed i s (s.writeWithFlag x b f) where
  reg r hr := by simp [ne_of_writesReg hx hr, ne_of_writesReg hf hr]

theorem of_setPc (p : Word) (hp : writesPc i = true) : WritesOnlyListed i s { s with pc := p } where
  pc hn := by simp [hp] at hn

theorem of_skipIf (c : Bool) (hp : writesPc i = true) : WritesOnlyListed i s (s.skipIf c) := by
  cases c
  case false => exact {}
  case true => exact of_setPc _ hp

/-- Taking a fault writes the latch alone (60_exceptions.md R223). -/
theorem of_raise (c : Cause) (hr : mayRaise i = true) : WritesOnlyListed i s { s with fault := some c } where
  fault hn := by simp [hr] at hn

theorem of_storeBytes (cells : List Host.Cell) (hm : ∃ x, i = .storeRegs x ∨ i = .ldB x) :
    WritesOnlyListed i s (s.storeBytes cells) := by
  rw [State.storeBytes_eq_with_mem]
  refine { mem := fun hn => ?_ }
  obtain ⟨x, hx | hx⟩ := hm
  · exact absurd hx (hn x).1
  · exact absurd hx (hn x).2

theorem of_setI (w : Word) (hI : (∃ a, i = .ldI a) ∨ ∃ x, i = .addI x ∨ i = .ldF x) :
    WritesOnlyListed i s { s with I := w } where
  I ha hx := by
    obtain ⟨a, h⟩ | ⟨x, h | h⟩ := hI
    · exact absurd h (ha a)
    · exact absurd h (hx x).1
    · exact absurd h (hx x).2

/-- A block operation takes its fault, or keeps to the list where its effect does. -/
theorem of_withBlock {n : Nat} {f : List Nat → State} (h : s.withBlock n f = .next t) (hr : mayRaise i = true)
    (hf : ∀ as, s.eaBlock s.I.toNat n = .ok as → WritesOnlyListed i s (f as)) : WritesOnlyListed i s t := by
  rcases State.withBlock_next h with ⟨as, ha, rfl⟩ | ⟨-, rfl⟩
  · exact hf as ha
  · exact of_raise _ hr

end WritesOnlyListed

open WritesOnlyListed

/-- RET pops into sp and pc, or takes its fault (41_control_flow.md R141). -/
theorem execRet_writesOnlyListed (h : execRet s = .next t) : WritesOnlyListed .ret s t := by
  unfold execRet at h
  split at h
  case h_1 k _ =>
    cases h
    exact { sp := fun _ hn => absurd rfl hn, pc := nofun }
  case h_2 c _ => cases h; exact of_raise c rfl
  case h_3 => cases h

/-- CALL pushes to the stack and jumps, or takes its fault (41_control_flow.md R143). -/
theorem execCall_writesOnlyListed {nnn : Addr} (h : execCall nnn s = .next t) :
    WritesOnlyListed (.call nnn) s t := by
  unfold execCall at h
  split at h
  case h_1 k _ =>
    cases h
    exact { stack := fun hn => absurd rfl (hn nnn), sp := fun hn => absurd rfl (hn nnn), pc := nofun }
  case h_2 c _ => cases h; exact of_raise c rfl
  case h_3 => cases h

/-- LD Vx, K rewinds pc, or writes V[x] (46_input.md R197). -/
theorem execLdKey_writesOnlyListed {x : Nibble} (h : execLdKey x s = .next t) :
    WritesOnlyListed (.ldKey x) s t := by
  unfold execLdKey at h
  split at h
  · cases h; exact of_setPc _ rfl
  · cases h; exact of_setReg _ _ (by simp [writesReg])

/-- SKP and SKNP skip, or take their fault (46_input.md R195, R196). -/
theorem exec_keySkip_writesOnlyListed (hi : ∃ x, i = .skp x ∨ i = .sknp x) (h : exec i s = .next t) :
    WritesOnlyListed i s t := by
  obtain ⟨x, rfl | rfl⟩ := hi
  all_goals
    simp only [exec, execSkp, execSknp] at h
    split at h
    · cases h; exact of_raise _ rfl
    · cases h; exact of_skipIf _ rfl

/-- A block load writes V[0] to V[x]: there are as many bytes as addresses in the block (44_memory_index.md R184). -/
theorem execLoadRegs_writesOnlyListed {x : Nibble} (h : execLoadRegs x s = .next t) :
    WritesOnlyListed (.loadRegs x) s t := by
  refine of_withBlock h rfl fun as ha => ?_
  have hlen : (as.map s.readByte).length = x.val + 1 := by simp [(State.eaBlock_ok ha).1]
  have hreg (r : Nibble) (hr : writesReg (.loadRegs x) r = false) :
      (s.setRegsFrom 0 (as.map s.readByte)).reg r = s.reg r := by
    have hxr : ¬ r.val ≤ x.val := by simpa [writesReg] using hr
    rw [State.reg_setRegsFrom _ _ (by omega), dif_neg (by omega)]
  rw [State.setRegsFrom_eq_with_V]
  exact { reg := hreg }

/-- DRW writes pixels and V[15], or takes its fault (48_draw.md R210). -/
theorem execDrw_writesOnlyListed {x y n : Nibble} (h : execDrw x y n s = .next t) :
    WritesOnlyListed (.drw x y n) s t :=
  of_withBlock h rfl fun _ _ =>
    { reg := (of_setReg (s := { s with video := _ }) flagReg _ rfl).reg
      video := fun _ hn => absurd rfl (hn x y n) }

/-- Every instruction keeps to what its rule lists. -/
theorem exec_writesOnlyListed (h : exec i s = .next t) : WritesOnlyListed i s t := by
  cases i
  case ret => exact execRet_writesOnlyListed h
  case call => exact execCall_writesOnlyListed h
  case ldKey => exact execLdKey_writesOnlyListed h
  case storeRegs x => exact of_withBlock h rfl fun _ _ => of_storeBytes _ ⟨x, .inl rfl⟩
  case loadRegs => exact execLoadRegs_writesOnlyListed h
  case ldB x => exact of_withBlock h rfl fun _ _ => of_storeBytes _ ⟨x, .inr rfl⟩
  case drw => exact execDrw_writesOnlyListed h
  case skp x => exact exec_keySkip_writesOnlyListed ⟨x, .inl rfl⟩ h
  case sknp x => exact exec_keySkip_writesOnlyListed ⟨x, .inr rfl⟩ h
  case nop => cases h; exact {}
  case cls => cases h; exact { video := fun hn => absurd rfl hn }
  case setDT x => cases h; exact { DT := fun hn => absurd rfl (hn x) }
  case setST x => cases h; exact { ST := fun hn => absurd rfl (hn x) }
  case ldI nnn => cases h; exact of_setI _ (.inl ⟨nnn, rfl⟩)
  case addI x => cases h; exact of_setI _ (.inr ⟨x, .inl rfl⟩)
  case ldF x => cases h; exact of_setI _ (.inr ⟨x, .inr rfl⟩)
  case jp | jpV0 => cases h; exact of_setPc _ rfl
  case seImm | sneImm | seReg | sneReg => cases h; exact of_skipIf _ rfl
  case addReg | subReg | subnReg | shr | shl =>
    cases h; exact of_writeWithFlag _ _ _ (by simp [writesReg]) (by simp [writesReg, flagReg])
  case ldImm | addImm | ldReg | orReg | andReg | xorReg | rnd | getDT =>
    cases h; exact of_setReg _ _ (by simp [writesReg])

/-- Settles O28: each instruction's update is checked against the list of its rule. -/
theorem instructionsWriteOnlyWhatTheirRulesList : Obligations.InstructionsWriteOnlyWhatTheirRulesList := by
  intro i s t h
  obtain ⟨hreg, hmem, hvideo, hstack, hsp, hI, hDT, hST, hpc, hfault, hop, hkeys, hparams, hrnd, hdraws, hsched⟩ :=
    exec_writesOnlyListed h
  exact ⟨hreg, hmem, hvideo, hstack, hsp, hI, hDT, hST, hpc, hfault, hop, hkeys, hparams, hrnd, hdraws, hsched⟩

end Sys2Proof.Machine

/-! The state after reset (10_state.md R34). -/

namespace Sys2Proof.Machine

/-- Memory lists nothing after reset, so that every byte reads as R34 says. -/
@[simp] theorem State.readByte_resetWith (p : Params) (a : Nat) : (State.resetWith p).readByte a = resetByte p a := rfl

theorem resetByte_font (p : Params) {i : Nat} (hi : i < 80) :
    resetByte p (p.fontBase.toNat + i) = p.fontData.getD i 0 := by
  rw [resetByte, if_pos (by omega), Nat.add_sub_cancel_left]

theorem resetByte_outside_font (p : Params) {a : Nat} (ha : a < p.fontBase.toNat ∨ p.fontBase.toNat + 80 ≤ a) :
    resetByte p a = 0 := by
  rw [resetByte, if_neg (by omega)]

/-- The reset state of any parameters is as R34 lists it. -/
theorem resetWith_atReset (p : Params) : AtReset (State.resetWith p) := by
  have hreg (r : Nibble) : (State.resetWith p).reg r = 0 := by simp [State.reg, State.resetWith]
  have hstack (k : Nibble) : (State.resetWith p).stack[k.val] = 0 := by simp [State.resetWith]
  have hpixel (y : Fin 32) (x : Fin 64) : (State.resetWith p).pixel y x = false := Video.get_clear y x
  have hkey (k : Nibble) : (State.resetWith p).key k = false := by simp [State.key, State.resetWith]
  exact ⟨hreg, rfl, rfl, rfl, hstack, rfl, rfl, rfl, fun _ hi => resetByte_font p hi,
    fun _ ha => resetByte_outside_font p ha, hpixel, hkey, rfl⟩

/-- The reset state of well-formed parameters meets the invariant. -/
theorem resetWith_inv {p : Params} (hp : p.wellFormed = true) : (State.resetWith p).Inv :=
  ⟨hp, rfl, Nat.zero_le _, rfl⟩

/-- Settles O6: `State.reset` is the reset state of the default parameters. -/
theorem resetStateIsAsListed : Obligations.ResetStateIsAsListed :=
  ⟨resetWith_atReset defaultParams, rfl, fun p => ⟨resetWith_atReset p, rfl⟩⟩

/-- Settles O8: nothing is listed in memory, sp is 0 and the latch is clear. -/
theorem resetStateMeetsInvariant : Obligations.ResetStateMeetsInvariant :=
  ⟨resetWith_inv (by decide), fun _ hp => resetWith_inv hp⟩

end Sys2Proof.Machine

/-! The invariant is kept (10_state.md R35). A fault sets a latch that its policy enables and changes nothing else;
otherwise memory changes by stores to resolved addresses, and sp by a push or a pop. -/

namespace Sys2Proof.Machine

variable {i : Instr} {s t : State}

theorem latchGoverned_of_clear (h : s.fault = none) : s.latchGoverned = true := by
  simp [State.latchGoverned, h]

/-- Taking a fault that its policy enables keeps the invariant (60_exceptions.md R223). -/
theorem TakesFault.keeps_inv (h : TakesFault s t) (hs : s.Inv) : t.Inv := by
  obtain ⟨c, hc, rfl⟩ := h
  obtain ⟨hp, hm, hsp, -⟩ := hs
  exact ⟨hp, hm, hsp, hc⟩

/-- A block store keeps memory canonical, whatever bytes it stores: the addresses of a block are resolved
(20_memory.md R65). -/
theorem withBlock_storeBytes_keeps_wf {n : Nat} {bs : List Byte} (hm : Memory.wf s.params s.mem = true)
    (h : s.withBlock n (fun addrs => s.storeBytes (addrs.zip bs)) = .next t) : Memory.wf s.params t.mem = true := by
  rcases State.withBlock_next h with ⟨as, ha, rfl⟩ | ⟨-, rfl⟩
  · exact State.storeBytes_wf s hm _ fun _ hc => State.eaBlock_le ha (List.of_mem_zip hc).1
  · exact hm

/-- Every instruction keeps memory canonical: the two that store do so through a block, the others leave it alone. -/
theorem exec_keeps_memory_wf (hm : Memory.wf s.params s.mem = true) (h : exec i s = .next t) :
    Memory.wf s.params t.mem = true := by
  have hframe := (exec_writesOnlyListed h).mem
  cases i
  case storeRegs => exact withBlock_storeBytes_keeps_wf hm h
  case ldB => exact withBlock_storeBytes_keeps_wf hm h
  all_goals rw [hframe (by simp)]; exact hm

/-- CALL pushes to a legal sp, or leaves sp with its fault (41_control_flow.md R143). -/
theorem execCall_keeps_sp_le {nnn : Addr} (hsp : s.sp.toNat ≤ spMax s.params) (h : execCall nnn s = .next t) :
    t.sp.toNat ≤ spMax s.params := by
  unfold execCall at h
  split at h
  case h_1 k _ => cases h; exact State.spAfterPush_le s k
  case h_2 => cases h; exact hsp
  case h_3 => cases h

/-- RET pops to the number of a slot, or leaves sp with its fault (41_control_flow.md R141). -/
theorem execRet_keeps_sp_le (hsp : s.sp.toNat ≤ spMax s.params) (h : execRet s = .next t) :
    t.sp.toNat ≤ spMax s.params := by
  unfold execRet at h
  split at h
  case h_1 k _ =>
    cases h
    have hmax : 15 ≤ spMax s.params := by unfold spMax; split <;> omega
    rw [State.popPc_sp, BitVec.toNat_ofNat]
    omega
  case h_2 => cases h; exact hsp
  case h_3 => cases h

/-- Every instruction keeps sp legal: CALL and RET move it, the others leave it alone. -/
theorem exec_keeps_sp_le (hsp : s.sp.toNat ≤ spMax s.params) (h : exec i s = .next t) :
    t.sp.toNat ≤ spMax s.params := by
  have hframe := (exec_writesOnlyListed h).sp
  cases i
  case call => exact execCall_keeps_sp_le hsp h
  case ret => exact execRet_keeps_sp_le hsp h
  all_goals rw [hframe (by simp) (by simp)]; exact hsp

/-- An instruction that answers with a clear latch keeps the invariant. -/
theorem exec_keeps_inv (hs : s.Inv) (h : exec i s = .next t) (hf : t.fault = none) : t.Inv := by
  obtain ⟨hp, hm, hsp, -⟩ := hs
  have hparams : t.params = s.params := (exec_writesOnlyListed h).params
  rw [State.Inv, hparams]
  exact ⟨hp, exec_keeps_memory_wf hm h, exec_keeps_sp_le hsp h, latchGoverned_of_clear hf⟩

/-- A STEP keeps the invariant: it does nothing, takes a fault, or commits its handler's state. -/
theorem cycle_keeps_inv {rnd : Byte} (hs : s.Inv) (h : cycle rnd s = .next t) : t.Inv := by
  rcases cycle_next h with ⟨-, rfl⟩ | ⟨-, hf⟩ | ⟨w, -, -, he, hf⟩
  · exact hs
  · exact hf.keeps_inv hs
  · have hcommit : (s.commitFetch rnd w).Inv := hs
    exact exec_keeps_inv hcommit he hf

/-- An event that a faulted core ignores keeps the invariant where its effect does. -/
theorem unlessFaulted_inv (hs : s.Inv) (ht : t.Inv) : (s.unlessFaulted t).Inv := by
  unfold State.unlessFaulted
  split
  · exact hs
  · exact ht

theorem writeByte_inv (hs : s.Inv) (a : Addr) (v : Byte) : (s.writeByte a.toNat v).Inv := by
  obtain ⟨hp, hm, hsp, hl⟩ := hs
  exact ⟨hp, Memory.wf_write hm (by have := a.isLt; omega) v, hsp, hl⟩

/-- Every command keeps the invariant. RESET keeps the parameters, so that its state meets the invariant as the reset
state does. -/
theorem command_keeps_inv {c : Command} (hs : s.Inv) (h : command c s = .next t) : t.Inv := by
  cases c
  case step => exact cycle_keeps_inv hs h
  case tick => cases h; exact unlessFaulted_inv hs hs
  case reset =>
    obtain ⟨hp, -⟩ := hs
    cases h; exact resetWith_inv hp
  case keySet => cases h; exact unlessFaulted_inv hs hs
  case memLoad a v => cases h; exact unlessFaulted_inv hs (writeByte_inv hs a v)

/-- Settles O20: a step is a command, on a state whose host side alone has changed. -/
theorem stepKeepsInvariant : Obligations.StepKeepsInvariant := by
  intro s t hs h
  rcases step_eq s with ⟨-, he⟩ | ⟨c, rest, -, he⟩ <;> rw [he] at h
  · have hdrawn : State.Inv { s with draws := s.draws + 1 } := hs
    exact cycle_keeps_inv hdrawn h
  · have htaken : State.Inv { s with schedule := rest } := hs
    exact command_keeps_inv htaken h

end Sys2Proof.Machine

/-! The flag V[15] (10_state.md R21). -/

namespace Sys2Proof.Machine

theorem flagByte_zero_or_one (c : Bool) : flagByte c = 0 ∨ flagByte c = 1 := by
  cases c
  · exact .inl rfl
  · exact .inr rfl

/-- The bit a right shift loses is a flag (43_register_alu.md R168). -/
theorem shiftedOutRight_eq_flagByte (a : Byte) : shiftedOutRight a = flagByte (decide (a.toNat % 2 = 1)) := by
  rcases Nat.mod_two_eq_zero_or_one a.toNat with h | h <;> simp [shiftedOutRight, flagByte, h]

/-- The bit a left shift loses is a flag (43_register_alu.md R170). -/
theorem shiftedOutLeft_eq_flagByte (a : Byte) : shiftedOutLeft a = flagByte (decide (a.toNat / 128 = 1)) := by
  have hbit : a.toNat / 128 = 0 ∨ a.toNat / 128 = 1 := by have := a.isLt; omega
  rcases hbit with h | h <;> simp [shiftedOutLeft, flagByte, h]

/-- The flag of a result and its flag, also where the result goes to V[15] (43_register_alu.md R171). -/
theorem reg_flag_writeWithFlag (s : State) (x : Nibble) (b f : Byte) : (s.writeWithFlag x b f).reg 15 = f := by
  simp [flagReg]

/-- DRW leaves its collision in V[15] unless it faults (48_draw.md R210, R212). -/
theorem execDrw_flag {x y n : Nibble} {s t : State} (h : execDrw x y n s = .next t) (hf : t.fault = none) :
    ∃ c, t.reg 15 = flagByte c := by
  rcases State.withBlock_next h with ⟨as, -, rfl⟩ | ⟨-, rfl⟩
  · exact ⟨_, (State.reg_setReg ..).trans (if_pos rfl)⟩
  · cases hf

/-- Settles O29: what each of the six leaves in V[15] is `flagByte` of a condition. -/
theorem flagInstructionsLeaveZeroOrOne : Obligations.FlagInstructionsLeaveZeroOrOne := by
  intro i s t hi _ h hf
  suffices hflag : ∃ c, t.reg 15 = flagByte c by
    obtain ⟨c, hc⟩ := hflag
    rw [hc]
    exact flagByte_zero_or_one c
  obtain ⟨x, y, n, rfl | rfl | rfl | rfl | rfl | rfl⟩ := hi
  case inr.inr.inr.inr.inr => exact execDrw_flag h hf
  all_goals cases h; rw [reg_flag_writeWithFlag]
  · exact ⟨_, rfl⟩
  · exact ⟨_, rfl⟩
  · exact ⟨_, rfl⟩
  · exact ⟨_, shiftedOutRight_eq_flagByte _⟩
  · exact ⟨_, shiftedOutLeft_eq_flagByte _⟩

end Sys2Proof.Machine

/-! Memory (20_memory.md R63, R65, R72). A read gives back what a write set, a block store is read back cell by cell,
and the next fetch reads the bytes that stand at pc and pc + 1. -/

namespace Sys2Proof.Machine

variable {s t : State} {w : Word}

/-- Settles O5: the word is the one the two bytes make. -/
theorem bytesDecodeBigEndian : Obligations.BytesDecodeBigEndian :=
  ⟨fun hi lo _ => ⟨wordOfBytes hi lo, wordOfBytes_toNat hi lo, rfl⟩, fun _ => rfl, rfl⟩

/-- Settles O11: the law of a read after a write, at the written address and at any other. -/
theorem memoryReadsBackWrites : Obligations.MemoryReadsBackWrites := by
  intro s a v hm ha
  have hsame : (s.writeByte a v).readByte a = v := by rw [State.readByte_writeByte s hm, if_pos rfl]
  have hother (c : Nat) (hc : c ≠ a) : (s.writeByte a v).readByte c = s.readByte c := by
    rw [State.readByte_writeByte s hm, if_neg hc]
  exact ⟨hsame, hother, rfl, Memory.wf_write hm ha v⟩

/-- A block store is read back cell by cell, because the addresses of a block differ (20_memory.md R65, R69). -/
theorem withBlock_storeBytes_readByte {n : Nat} {bs : List Byte} (hm : Memory.wf s.params s.mem = true)
    (h : s.withBlock n (fun addrs => s.storeBytes (addrs.zip bs)) = .next t) (hf : t.fault = none)
    (hbs : bs.length = n) (hn : n ≤ 4096) {i a : Nat} (hi : i < bs.length)
    (ha : s.ea .data (s.I.toNat + i) = .ok a) : t.readByte a = bs[i] := by
  rcases State.withBlock_next h with ⟨as, has, rfl⟩ | ⟨-, rfl⟩
  case inr => cases hf
  obtain ⟨hlen, hget⟩ := State.eaBlock_ok has
  have hia : i < as.length := by omega
  have haddr : as[i] = a := Except.ok.inj ((hget i hia).symm.trans ha)
  have hcell : (a, bs[i]) ∈ as.zip bs :=
    List.mem_iff_getElem.mpr ⟨i, by simp [hia, hi], by simp [haddr]⟩
  have hdiffer : ((as.zip bs).map Prod.fst).Nodup := by
    rw [List.map_fst_zip (by omega)]
    exact State.eaBlock_nodup has hn
  exact State.readByte_storeBytes_mem s hm _ (fun _ hc => State.eaBlock_le has (List.of_mem_zip hc).1) hdiffer hcell

/-- Each register that LD [I], Vx stores is read back (44_memory_index.md R183). -/
theorem exec_storeRegs_readByte {x r : Nibble} (hm : Memory.wf s.params s.mem = true)
    (h : exec (.storeRegs x) s = .next t) (hf : t.fault = none) (hr : r ≤ x) {a : Nat}
    (ha : s.ea .data (s.I.toNat + r.val) = .ok a) : t.readByte a = s.reg r := by
  have hlen := State.regsUpTo_length (s := s) x
  have hi : r.val < (s.regsUpTo x).length := hlen ▸ Nat.lt_succ_of_le hr
  exact (withBlock_storeBytes_readByte hm h hf hlen (by omega) hi ha).trans (State.regsUpTo_getElem x hi r.isLt)

/-- The digits of LD B, hundreds first (44_memory_index.md R185). -/
theorem bcdDigits_getElem_toNat (v : Byte) {r : Nat} (hr : r < (bcdDigits v).length) :
    (bcdDigits v)[r].toNat = v.toNat / 10 ^ (2 - r) % 10 := by
  have hv := v.isLt
  have h3 : r < 3 := hr
  interval_cases r <;> simp [bcdDigits] <;> omega

/-- Each digit that LD B, Vx stores is read back (44_memory_index.md R185). -/
theorem exec_ldB_readByte {x : Nibble} (hm : Memory.wf s.params s.mem = true) (h : exec (.ldB x) s = .next t)
    (hf : t.fault = none) {r a : Nat} (hr : r < 3) (ha : s.ea .data (s.I.toNat + r) = .ok a) :
    (t.readByte a).toNat = (s.reg x).toNat / 10 ^ (2 - r) % 10 := by
  have hi : r < (bcdDigits (s.reg x)).length := hr
  rw [withBlock_storeBytes_readByte hm h hf rfl (by omega) hi ha, bcdDigits_getElem_toNat]

/-- After an instruction that leaves pc, the fetch takes its high byte at the old pc and its low byte at pc + 1
(20_memory.md R63). -/
theorem exec_fetchWord_bytes {i : Instr} (hi : writesPc i = false) (h : exec i s = .next t)
    (hw : t.fetchWord = .ok w) (a : Nat) :
    (s.ea .fetch s.pc.toNat = .ok a → highByte w = t.readByte a) ∧
    (s.ea .fetch (s.pc.toNat + 1) = .ok a → lowByte w = t.readByte a) := by
  obtain ⟨a0, a1, h0, h1, rfl⟩ := State.fetchWord_ok hw
  have hframe := exec_writesOnlyListed h
  rw [hframe.pc hi, State.ea_congr hframe.params] at h0 h1
  rw [highByte_wordOfBytes, lowByte_wordOfBytes, h0, h1]
  exact ⟨fun h => by cases h; rfl, fun h => by cases h; rfl⟩

/-- Settles O32: an instruction that stores leaves pc where it is, and the fetch reads the stored cell. -/
theorem storesAreSeenByTheNextFetch : Obligations.StoresAreSeenByTheNextFetch := by
  intro s t x a w hm _ hf hw
  constructor
  · intro r hr h ha
    rw [← exec_storeRegs_readByte hm h hf hr ha]
    exact exec_fetchWord_bytes rfl h hw a
  · intro r hr h ha
    obtain ⟨hhigh, hlow⟩ := exec_fetchWord_bytes rfl h hw a
    rw [← exec_ldB_readByte hm h hf hr ha]
    exact ⟨fun h0 => congrArg BitVec.toNat (hhigh h0), fun h1 => congrArg BitVec.toNat (hlow h1)⟩

/-! The placed word (log 17). -/

/-- Under OOB_POLICY = fault the fetch point is one where a fetch succeeds: pc, or START_ADDRESS by 00_scope.md R5. -/
theorem fetchPoint_le (hp : s.params.wellFormed = true) (ho : s.params.oobPolicy = .fault) :
    s.fetchPoint.toNat ≤ 0xFFE := by
  simp only [Params.wellFormed, Params.startInMemory, Bool.and_eq_true, decide_eq_true_eq] at hp
  obtain ⟨-, hstart⟩ := hp
  unfold State.fetchPoint
  split
  case isTrue hc => simpa [State.canFetch, ho] using hc
  case isFalse => exact hstart

/-- The two addresses of a fetch at the fetch point resolve, under both policies (20_memory.md R64). -/
theorem ea_fetchPoint (hp : s.params.wellFormed = true) {k : Nat} (hk : k ≤ 1) :
    s.ea .fetch (s.fetchPoint.toNat + k) = .ok ((s.fetchPoint.toNat + k) % 4096) := by
  cases ho : s.params.oobPolicy with
  | wrap => exact State.ea_wrap _ _ ho
  | fault =>
    have hle := fetchPoint_le hp ho
    rw [State.ea_low _ (by omega), Nat.mod_eq_of_lt (by omega)]

/-- The cells a placed word is stored in: the high byte at the lower address (20_memory.md R63). -/
def State.fetchCells (s : State) (w : Word) : List Host.Cell :=
  [(s.fetchPoint.toNat % 4096, highByte w), ((s.fetchPoint.toNat + 1) % 4096, lowByte w)]

theorem placeWord_eq (s : State) (w : Word) :
    s.placeWord w = { s with mem := (s.storeBytes (s.fetchCells w)).mem, pc := s.fetchPoint, fault := none,
                             schedule := [] } := by
  apply State.ext <;> simp [State.placeWord, State.fetchCells]

theorem fetchCells_le {c : Host.Cell} (hc : c ∈ s.fetchCells w) : c.1 ≤ 0xFFF := by
  simp only [State.fetchCells, List.mem_cons, List.not_mem_nil, or_false] at hc
  rcases hc with rfl | rfl <;> dsimp only <;> omega

/-- A placed word is read back from its cells. -/
theorem placeWord_readByte (hm : Memory.wf s.params s.mem = true) {c : Host.Cell} (hc : c ∈ s.fetchCells w) :
    (s.placeWord w).readByte c.1 = c.2 := by
  have hne : s.fetchPoint.toNat % 4096 ≠ (s.fetchPoint.toNat + 1) % 4096 := by omega
  have hdiffer : ((s.fetchCells w).map Prod.fst).Nodup := by simpa [State.fetchCells] using hne
  have hmem : (s.placeWord w).readByte c.1 = (s.storeBytes (s.fetchCells w)).readByte c.1 := rfl
  rw [hmem, State.readByte_storeBytes_mem s hm _ (fun _ => fetchCells_le) hdiffer hc]

/-- A placed word is the word fetched next (20_memory.md R72). -/
theorem placeWord_fetchWord (hs : s.Inv) (w : Word) : (s.placeWord w).fetchWord = .ok w := by
  obtain ⟨hp, hm, -⟩ := hs
  have hparams : (s.placeWord w).params = s.params := by rw [placeWord_eq]
  have hpc : (s.placeWord w).pc = s.fetchPoint := rfl
  have hhigh := placeWord_readByte hm (List.mem_cons_self : (_, highByte w) ∈ s.fetchCells w)
  have hlow := placeWord_readByte hm (List.mem_cons_of_mem _ List.mem_cons_self : (_, lowByte w) ∈ s.fetchCells w)
  have h0 := ea_fetchPoint hp (Nat.zero_le 1)
  have h1 := ea_fetchPoint hp (Nat.le_refl 1)
  rw [← State.ea_congr hparams, ← hpc] at h0 h1
  rw [State.fetchWord_of_ea h0 h1]
  exact congrArg Except.ok ((congrArg₂ wordOfBytes hhigh hlow).trans (wordOfBytes_high_low w))

/-- Placing a word keeps the invariant: it is two stores into memory, and the latch is cleared. -/
theorem placeWord_inv (hs : s.Inv) (w : Word) : (s.placeWord w).Inv := by
  obtain ⟨hp, hm, hsp, -⟩ := hs
  rw [placeWord_eq]
  exact ⟨hp, State.storeBytes_wf s hm _ fun _ => fetchCells_le, hsp, rfl⟩

/-- Settles O22: the word of a 16-bit row is the row's number, and `withFetchWord` places it. -/
theorem placedWordIsFetchedNext : Obligations.PlacedWordIsFetchedNext := by
  intro s w hs hw
  have hword : s.withFetchWord 16 w = s.placeWord (BitVec.ofNat 16 w) := by
    rw [State.withFetchWord, tableWord, Nat.mod_eq_of_lt (by omega)]
  have hV : (s.placeWord (BitVec.ofNat 16 w)).V = s.V := by rw [placeWord_eq]
  rw [hword]
  exact ⟨placeWord_fetchWord hs _, rfl, rfl, hV, placeWord_inv hs _⟩

end Sys2Proof.Machine

/-! The encoding (30_encoding.md R90 to R102). A word's row of the opcode map says which instruction it is, and its fields
say with which operands. -/

namespace Sys2Proof

open Laws
open EncodesItsRow (selects_iff agrees encodeNNN_toNat encodeXKK_toNat encodeXYN_toNat encodeXS_toNat)

variable {w w' : Word}

/-! The row. -/

theorem rowNumber_bounds (i : Instr) : 1 ≤ i.rowNumber ∧ i.rowNumber ≤ 35 := by
  cases i <;> simp [Instr.rowNumber]

theorem rowNumber_eq_35_iff {i : Instr} : i.rowNumber = 35 ↔ i = .nop := by
  cases i <;> simp [Instr.rowNumber]

/-- The map has the rows 1 to 34. -/
theorem exists_row_iff {r : Nat} : (∃ row ∈ opcodeMap, row.number = r) ↔ 1 ≤ r ∧ r < 35 := by
  have hnumbers : opcodeMap.map OpcodeRow.number = List.range' 1 34 := rfl
  rw [← List.mem_map, hnumbers, List.mem_range'_1]

/-- Only family F dispatches on the lowest byte (R94 to R98). -/
theorem rowOf_of_lt_15 {t : Nat} (ht : t < 15) (n kk : Nat) : rowOf t n kk = rowOf t n 0 := by
  interval_cases t <;> rfl

/-- In the families below F the rows agree with the dispatch on the lowest nibble. -/
theorem opcodeMap_agrees_of_lt_15 :
    ∀ t < 15, ∀ n < 16, opcodeMap.all (agrees t (some n) none (rowOf t n 0)) = true := by decide

/-- In family F the rows agree with the dispatch on the lowest byte. -/
theorem opcodeMap_agrees_15 (n kk : Nat) : opcodeMap.all (agrees 15 none (some kk) (rowOf 15 n kk)) = true := by
  simp only [rowOf]
  split
  case h_10 => simp_all [opcodeMap, agrees]; omega
  all_goals decide

/-- A word selects the row of its instruction and no other (R99, R100). -/
theorem matchesWord_iff (w : Word) :
    ∀ row ∈ opcodeMap, (row.matchesWord w = true ↔ row.number = (decodeWord w).rowNumber) := by
  have hlt := w.isLt
  rw [decodeWord_rowNumber]
  by_cases ht : w.toNat / 4096 < 15
  · rw [rowOf_of_lt_15 ht]
    exact selects_iff w (some _) none rfl (fun _ => Option.some.inj) (fun _ hm => nomatch hm)
      (List.all_eq_true.mp (opcodeMap_agrees_of_lt_15 _ ht _ (by omega)))
  · have h15 : w.toNat / 4096 = 15 := by omega
    rw [h15]
    exact selects_iff w none (some _) h15 (fun _ hm => nomatch hm) (fun _ => Option.some.inj)
      (List.all_eq_true.mp (opcodeMap_agrees_15 _ _))

/-- Settles O2: a word that selects no row has the one row number that the map lacks, which is that of NOP. -/
theorem decodeFollowsOpcodeMap : Obligations.DecodeFollowsOpcodeMap := by
  refine ⟨fun w row hr => (matchesWord_iff w row hr).trans eq_comm, fun w => ?_⟩
  have hle := rowNumber_bounds (decodeWord w)
  calc (∀ row ∈ opcodeMap, row.matchesWord w = false)
      ↔ ¬ ∃ row ∈ opcodeMap, row.number = (decodeWord w).rowNumber := by
        simp +contextual only [← Bool.not_eq_true, matchesWord_iff, not_exists, not_and]
    _ ↔ (decodeWord w).rowNumber = 35 := by rw [exists_row_iff]; omega
    _ ↔ decodeWord w = .nop := rowNumber_eq_35_iff

/-- The rows that a word selects tell its row number. -/
theorem rowNumber_of_matches {i : Instr}
    (h : ∀ row ∈ opcodeMap, (row.matchesWord w = true ↔ row.number = i.rowNumber)) :
    (decodeWord w).rowNumber = i.rowNumber := by
  have hrows (row) (hr : row ∈ opcodeMap) : row.number = (decodeWord w).rowNumber ↔ row.number = i.rowNumber :=
    (matchesWord_iff w row hr).symm.trans (h row hr)
  obtain ⟨hwPos, hwLe⟩ := rowNumber_bounds (decodeWord w)
  obtain ⟨hiPos, hiLe⟩ := rowNumber_bounds i
  by_contra hne
  have hmap : (decodeWord w).rowNumber < 35 ∨ i.rowNumber < 35 := by omega
  rcases hmap with hlt | hlt
  · obtain ⟨row, hr, hnum⟩ := exists_row_iff.mpr ⟨hwPos, hlt⟩
    exact hne (hnum.symm.trans ((hrows row hr).mp hnum))
  · obtain ⟨row, hr, hnum⟩ := exists_row_iff.mpr ⟨hiPos, hlt⟩
    exact hne (((hrows row hr).mpr hnum).symm.trans hnum)

/-! The operands. -/

/-- The instruction of a row of the opcode map, with the operands that its format reads from the word (R91 to R93, R100). -/
def instrOfRow (r : Nat) (w : Word) : Instr :=
  let x := xField w
  let y := yField w
  match r with
  | 1 => .cls
  | 2 => .ret
  | 3 => .jp (nnnField w)
  | 4 => .call (nnnField w)
  | 5 => .jpV0 (nnnField w)
  | 6 => .seImm x (kkField w)
  | 7 => .sneImm x (kkField w)
  | 8 => .seReg x y
  | 9 => .sneReg x y
  | 10 => .ldImm x (kkField w)
  | 11 => .addImm x (kkField w)
  | 12 => .ldReg x y
  | 13 => .orReg x y
  | 14 => .andReg x y
  | 15 => .xorReg x y
  | 16 => .addReg x y
  | 17 => .subReg x y
  | 18 => .shr x
  | 19 => .subnReg x y
  | 20 => .shl x
  | 21 => .ldI (nnnField w)
  | 22 => .addI x
  | 23 => .ldF x
  | 24 => .storeRegs x
  | 25 => .loadRegs x
  | 26 => .ldB x
  | 27 => .rnd x (kkField w)
  | 28 => .skp x
  | 29 => .sknp x
  | 30 => .ldKey x
  | 31 => .getDT x
  | 32 => .setDT x
  | 33 => .setST x
  | 34 => .drw x y (nField w)
  | _ => .nop

/-- A decoded instruction has the operands that its row reads from the word. -/
theorem decodeWord_eq_instrOfRow (w : Word) : decodeWord w = instrOfRow (decodeWord w).rowNumber w := by
  unfold decodeWord decodeFamily0 decodeFamily8 decodeFamilyE decodeFamilyF
  repeat' split
  all_goals rfl

/-! The encoder. -/

@[simp] theorem nnnField_encodeNNN {t : Nat} (ht : t < 16) (a : Addr) : nnnField (encodeNNN t a) = a := by
  apply BitVec.eq_of_toNat_eq
  have := a.isLt
  rw [nnnField_toNat, encodeNNN_toNat t ht]; omega

@[simp] theorem xField_encodeXKK {t : Nat} (ht : t < 16) (x : Nibble) (k : Byte) : xField (encodeXKK t x k) = x := by
  apply Fin.ext
  have := k.isLt
  rw [xField_val, encodeXKK_toNat t ht]; omega

@[simp] theorem kkField_encodeXKK {t : Nat} (ht : t < 16) (x : Nibble) (k : Byte) : kkField (encodeXKK t x k) = k := by
  apply BitVec.eq_of_toNat_eq
  have := k.isLt
  rw [kkField_toNat, encodeXKK_toNat t ht]; omega

@[simp] theorem xField_encodeXYN {t n : Nat} (ht : t < 16) (hn : n < 16) (x y : Nibble) :
    xField (encodeXYN t x y n) = x := by
  apply Fin.ext
  rw [xField_val, encodeXYN_toNat t ht x y n hn]; omega

@[simp] theorem yField_encodeXYN {t n : Nat} (ht : t < 16) (hn : n < 16) (x y : Nibble) :
    yField (encodeXYN t x y n) = y := by
  apply Fin.ext
  rw [yField_val, encodeXYN_toNat t ht x y n hn]; omega

@[simp] theorem nField_encodeXYN {t : Nat} (ht : t < 16) (x y n : Nibble) : nField (encodeXYN t x y n.val) = n := by
  apply Fin.ext
  rw [nField_val, encodeXYN_toNat t ht x y n.val n.isLt]; omega

@[simp] theorem xField_encodeXS {t low : Nat} (ht : t < 16) (hlow : low < 256) (x : Nibble) :
    xField (encodeXS t x low) = x := by
  apply Fin.ext
  rw [xField_val, encodeXS_toNat t ht x low hlow]; omega

/-- The operands are read back from the encoded word. -/
theorem instrOfRow_encode (i : Instr) : instrOfRow i.rowNumber (encode i) = i := by
  cases i <;> simp [Instr.rowNumber, encode, instrOfRow]

/-- The encoder follows the opcode map, for every instruction. -/
theorem encodesItsRow : ∀ i, EncodesItsRow.Statement i
  | .cls => EncodesItsRow.cls
  | .ret => EncodesItsRow.ret
  | .jp nnn => EncodesItsRow.jp nnn
  | .call nnn => EncodesItsRow.call nnn
  | .jpV0 nnn => EncodesItsRow.jpV0 nnn
  | .seImm x kk => EncodesItsRow.seImm x kk
  | .sneImm x kk => EncodesItsRow.sneImm x kk
  | .seReg x y => EncodesItsRow.seReg x y
  | .sneReg x y => EncodesItsRow.sneReg x y
  | .ldImm x kk => EncodesItsRow.ldImm x kk
  | .addImm x kk => EncodesItsRow.addImm x kk
  | .ldReg x y => EncodesItsRow.ldReg x y
  | .orReg x y => EncodesItsRow.orReg x y
  | .andReg x y => EncodesItsRow.andReg x y
  | .xorReg x y => EncodesItsRow.xorReg x y
  | .addReg x y => EncodesItsRow.addReg x y
  | .subReg x y => EncodesItsRow.subReg x y
  | .shr x => EncodesItsRow.shr x
  | .subnReg x y => EncodesItsRow.subnReg x y
  | .shl x => EncodesItsRow.shl x
  | .ldI nnn => EncodesItsRow.ldI nnn
  | .addI x => EncodesItsRow.addI x
  | .ldF x => EncodesItsRow.ldF x
  | .storeRegs x => EncodesItsRow.storeRegs x
  | .loadRegs x => EncodesItsRow.loadRegs x
  | .ldB x => EncodesItsRow.ldB x
  | .rnd x kk => EncodesItsRow.rnd x kk
  | .skp x => EncodesItsRow.skp x
  | .sknp x => EncodesItsRow.sknp x
  | .ldKey x => EncodesItsRow.ldKey x
  | .getDT x => EncodesItsRow.getDT x
  | .setDT x => EncodesItsRow.setDT x
  | .setST x => EncodesItsRow.setST x
  | .drw x y n => EncodesItsRow.drw x y n
  | .nop => EncodesItsRow.nop

/-- The encoded word has the instruction's row, and that row reads the operands back. -/
theorem decodeWord_encode (i : Instr) : decodeWord (encode i) = i := by
  obtain ⟨-, hrow⟩ := encodesItsRow i
  rw [decodeWord_eq_instrOfRow, rowNumber_of_matches hrow, instrOfRow_encode]

/-- Settles O1: the two bytes make the encoded word again. -/
theorem decodeInvertsEncode : Obligations.DecodeInvertsEncode := by
  intro i rest
  have hbytes : decode (encodeBytes i ++ rest) = .ok (decodeWord (encode i), rest) := by
    rw [← Machine.wordOfBytes_high_low (encode i)]; rfl
  rw [hbytes, decodeWord_encode]
  exact ⟨rfl, rfl⟩

/-! The ignored bits (R102). -/

/-- Words that agree on the bits of a mask agree on fewer bits. -/
theorem and_eq_of_submask {m k : Word} (hk : m &&& k = k) (h : w &&& m = w' &&& m) : w &&& k = w' &&& k := by
  rw [← hk, ← BitVec.and_assoc, ← BitVec.and_assoc, h]

/-- A word that agrees on a row's mask with a word of that row is of that row (R100). -/
theorem rowNumber_of_and_eq {row : OpcodeRow} (hr : row ∈ opcodeMap) (hrow : row.number = (decodeWord w).rowNumber)
    (h : w &&& row.mask = w' &&& row.mask) : row.number = (decodeWord w').rowNumber := by
  rw [← matchesWord_iff _ row hr] at hrow ⊢
  rwa [OpcodeRow.matchesWord, ← h]

/-- Bits outside a mask `m` are ignored where `m` covers the mask of the row and the fields of its operands. -/
theorem decodeWord_of_and_eq {i : Instr} (row : OpcodeRow) {m : Word} (hr : row ∈ opcodeMap)
    (hw : decodeWord w = i) (hrow : row.number = i.rowNumber) (hm : m &&& row.mask = row.mask)
    (h : w &&& m = w' &&& m) (hops : instrOfRow row.number w' = instrOfRow row.number w) :
    decodeWord w' = decodeWord w := by
  rw [← hw] at hrow
  have hrow' := rowNumber_of_and_eq hr hrow (and_eq_of_submask hm h)
  rw [decodeWord_eq_instrOfRow w, decodeWord_eq_instrOfRow w', ← hrow, ← hrow', hops]

/-- Agreement on a mask, as numbers. -/
theorem toNat_and_eq {m : Word} (h : w &&& m = w' &&& m) : w'.toNat &&& m.toNat = w.toNat &&& m.toNat := by
  rw [← BitVec.toNat_and, ← h, BitVec.toNat_and]

theorem xField_of_and_FF0F (h : w &&& 0xFF0F = w' &&& 0xFF0F) : xField w' = xField w := by
  have hnat : w'.toNat / 256 * 256 + w'.toNat % 16 = w.toNat / 256 * 256 + w.toNat % 16 := by
    rw [← land_FF0F w.isLt, ← land_FF0F w'.isLt]; exact toNat_and_eq h
  apply Fin.ext
  rw [xField_val, xField_val]; omega

theorem xField_yField_of_and_FFF0 (h : w &&& 0xFFF0 = w' &&& 0xFFF0) :
    xField w' = xField w ∧ yField w' = yField w := by
  have hnat : w'.toNat / 16 * 16 = w.toNat / 16 * 16 := by
    rw [← land_FFF0 w.isLt, ← land_FFF0 w'.isLt]; exact toNat_and_eq h
  constructor <;> apply Fin.ext
  · rw [xField_val, xField_val]; omega
  · rw [yField_val, yField_val]; omega

/-- Below family F, whether a word is a NOP depends on the top nibble and the lowest nibble alone (R95 to R97). -/
theorem decodeWord_nop_of_and_F00F (h : w &&& 0xF00F = w' &&& 0xF00F) (hF : tField w ≠ 0xF)
    (hw : decodeWord w = .nop) : decodeWord w' = .nop := by
  have hnat : w'.toNat / 4096 * 4096 + w'.toNat % 16 = w.toNat / 4096 * 4096 + w.toNat % 16 := by
    rw [← land_F00F w.isLt, ← land_F00F w'.isLt]; exact toNat_and_eq h
  have hlt : w.toNat / 4096 < 15 := by
    have hne : w.toNat / 4096 ≠ 15 := fun h15 => hF (Fin.ext (by rw [tField_val, h15]; rfl))
    have := w.isLt
    omega
  have ht : w'.toNat / 4096 = w.toNat / 4096 := by omega
  have hn : w'.toNat % 16 = w.toNat % 16 := by omega
  rw [← rowNumber_eq_35_iff, decodeWord_rowNumber, rowOf_of_lt_15 hlt] at hw
  rw [← rowNumber_eq_35_iff, decodeWord_rowNumber, ht, hn, rowOf_of_lt_15 hlt, hw]

/-- No row of the map examines bits 11:8. -/
theorem decodeWord_nop_of_and_F0FF (h : w &&& 0xF0FF = w' &&& 0xF0FF) (hw : decodeWord w = .nop) :
    decodeWord w' = .nop := by
  have hmasks : ∀ row ∈ opcodeMap, 0xF0FF &&& row.mask = row.mask := by decide
  obtain ⟨-, hnop⟩ := decodeFollowsOpcodeMap
  rw [← hnop] at hw ⊢
  intro row hr
  rw [← hw row hr, OpcodeRow.matchesWord, OpcodeRow.matchesWord, and_eq_of_submask (hmasks row hr) h]

/-- Settles O3: each row of R102 leaves the mask of its opcode row and the fields of its operands alone. -/
theorem decodeIgnoresBits : Obligations.DecodeIgnoresBits := by
  intro w w'
  refine ⟨?family0, ?registerSkips, ?shifts, ?keySkips, decodeWord_nop_of_and_F00F, decodeWord_nop_of_and_F0FF⟩
  case family0 =>
    rintro h (hw | hw)
    · exact decodeWord_of_and_eq ⟨1, 0xF00F, 0x0000⟩ (by decide) hw rfl (by decide) h rfl
    · exact decodeWord_of_and_eq ⟨2, 0xF00F, 0x000E⟩ (by decide) hw rfl (by decide) h rfl
  case registerSkips =>
    rintro h ⟨x, y, hw | hw⟩ <;> obtain ⟨hx, hy⟩ := xField_yField_of_and_FFF0 h
    · exact decodeWord_of_and_eq ⟨8, 0xF000, 0x5000⟩ (by decide) hw rfl (by decide) h (congrArg₂ Instr.seReg hx hy)
    · exact decodeWord_of_and_eq ⟨9, 0xF000, 0x9000⟩ (by decide) hw rfl (by decide) h (congrArg₂ Instr.sneReg hx hy)
  case shifts =>
    rintro h ⟨x, hw | hw⟩ <;> have hx := xField_of_and_FF0F h
    · exact decodeWord_of_and_eq ⟨18, 0xF00F, 0x8006⟩ (by decide) hw rfl (by decide) h (congrArg Instr.shr hx)
    · exact decodeWord_of_and_eq ⟨20, 0xF00F, 0x800E⟩ (by decide) hw rfl (by decide) h (congrArg Instr.shl hx)
  case keySkips =>
    rintro h ⟨x, hw | hw⟩ <;> have hx := xField_of_and_FF0F h
    · exact decodeWord_of_and_eq ⟨28, 0xF00F, 0xE00E⟩ (by decide) hw rfl (by decide) h (congrArg Instr.skp hx)
    · exact decodeWord_of_and_eq ⟨29, 0xF00F, 0xE001⟩ (by decide) hw rfl (by decide) h (congrArg Instr.sknp hx)

end Sys2Proof

/-! The cycle (40_cycle_and_dispatch.md). The fetch in and out of reach, a STEP of the host as a cycle, that no step is
stuck, and that the random byte of a STEP is carried along by every instruction but RND. -/

namespace Sys2Proof.Machine

variable {i : Instr} {s t b : State} {rnd r : Byte} {w : Word}

/-! The fetch (R121). -/

/-- In reach the fetch reads at pc and pc + 1, under both policies. -/
theorem fetchWord_of_le (h : s.pc.toNat ≤ 0xFFE) :
    s.fetchWord = .ok (wordOfBytes (s.readByte s.pc.toNat) (s.readByte (s.pc.toNat + 1))) :=
  State.fetchWord_of_ea (State.ea_low _ (by omega)) (State.ea_low _ (by omega))

/-- Under OOB_POLICY = wrap each of the two addresses is taken modulo 4096 by itself. -/
theorem fetchWord_wrap (h : s.params.oobPolicy = .wrap) :
    s.fetchWord =
      .ok (wordOfBytes (s.readByte (s.pc.toNat % 4096)) (s.readByte ((s.pc.toNat + 1) % 4096))) :=
  State.fetchWord_of_ea (State.ea_wrap _ _ h) (State.ea_wrap _ _ h)

/-- An address of the fetch that does not resolve makes the fetch raise the same cause. -/
theorem fetchWord_of_ea_error {c : Cause}
    (h : s.ea .fetch s.pc.toNat = .error c ∨ s.ea .fetch (s.pc.toNat + 1) = .error c) : s.fetchWord = .error c := by
  have hc : c = .fetchAddressRange := by rcases h with h | h <;> exact (State.ea_error h).1
  cases hw : s.fetchWord with
  | error c' => rw [hc, (State.fetchWord_error hw).1]
  | ok w =>
    obtain ⟨a0, a1, h0, h1, -⟩ := State.fetchWord_ok hw
    simp [h0, h1] at h

/-- Under OOB_POLICY = fault the fetch above 0xFFE raises: pc + 1 is out of reach. -/
theorem fetchWord_fault (ho : s.params.oobPolicy = .fault) (hpc : s.pc.toNat > 0xFFE) :
    s.fetchWord = .error .fetchAddressRange :=
  fetchWord_of_ea_error (.inr (State.ea_fault .fetch ho (by omega)))

/-- Settles O13: the fetch in reach, under wrap, and out of reach under fault. -/
theorem fetchReadsTwoBytesAtPc : Obligations.FetchReadsTwoBytesAtPc := by
  intro s
  refine ⟨fun ho => ⟨fun ⟨w, hw⟩ => ?_, fun hpc => ⟨_, fetchWord_of_le hpc⟩⟩, fetchWord_fault,
    fun hpc => ?_, fun ho => ?_⟩
  · by_contra hpc
    rw [fetchWord_fault ho (by omega)] at hw
    cases hw
  · exact ⟨_, fetchWord_of_le hpc, wordOfBytes_toNat ..⟩
  · exact ⟨_, fetchWord_wrap ho, wordOfBytes_toNat ..⟩

/-! A STEP of the host (R120). -/

/-- The host's STEP is a cycle with its byte, on the state once the host's side has given it. -/
theorem TakesStep.step_eq_cycle (h : TakesStep s b rnd) : step s = cycle rnd b := by
  obtain ⟨rest, hs, rfl⟩ | ⟨hs, rfl, rfl⟩ := h <;> simp [step, advance, hs, command]

/-- Giving a STEP changes the host's side alone, and so nothing that the cycle looks at. -/
theorem TakesStep.keeps (h : TakesStep s b rnd) :
    b.fault = s.fault ∧ b.pc = s.pc ∧ b.fetchWord = s.fetchWord := by
  obtain ⟨rest, -, rfl⟩ | ⟨-, -, rfl⟩ := h
  · exact ⟨rfl, rfl, rfl⟩
  · exact ⟨rfl, rfl, rfl⟩

/-- A STEP whose fetch succeeds settles the handler of the fetched word, run on the committed state (R120, R122). -/
theorem TakesStep.step_eq_settle (h : TakesStep s b rnd) (hf : s.fault = none) (hw : s.fetchWord = .ok w) :
    step s = settle b (exec (decodeWord w) { b with rnd := rnd, opcode := w, pc := s.pc + 2 }) := by
  obtain ⟨hfault, hpc, hfetch⟩ := h.keeps
  rw [h.step_eq_cycle, cycle_eq (hfault.trans hf) (hfetch.trans hw), State.commitFetch, hpc]

/-- A fetch that raises leaves the state as it was but for the latch (R120, R125). -/
theorem cycle_fetch_error {c : Cause} (hf : s.fault = none) (hw : s.fetchWord = .error c) :
    cycle rnd s = .next { s with fault := some c } := by
  simp [cycle, hf, hw, State.raise]

/-- Settles O14: a STEP is a cycle, whose fetch raises or whose handler's outcome is settled. -/
theorem stepRunsDecodedInstruction : Obligations.StepRunsDecodedInstruction := by
  intro s b rnd hb
  obtain ⟨hfault, -, hfetch⟩ := hb.keeps
  refine ⟨fun hf => ?faulted, fun hf => ⟨fun c hc => ?fetchRaises, fun a0 a1 i h0 h1 hi => ?handlerRuns⟩⟩
  case faulted => rw [hb.step_eq_cycle, cycle_faulted (hfault ▸ hf)]
  case fetchRaises =>
    rw [hb.step_eq_cycle, cycle_fetch_error (hfault.trans hf) (hfetch.trans (fetchWord_of_ea_error hc))]
  case handlerRuns =>
    cases hi
    intro run
    have hstep : step s = settle b run := hb.step_eq_settle hf (State.fetchWord_of_ea h0 h1)
    refine ⟨fun t hrun hclear => ?_, fun t c hrun hraised => ?_, fun r hrun => ?_⟩ <;> rw [hstep, hrun]
    · exact settle_clear b hclear
    · exact settle_raised b hraised
    · rfl

/-- Settles O40: a word that no row matches is a NOP, which answers the state the cycle has committed. -/
theorem nopOnlyAdvancesThePc : Obligations.NopOnlyAdvancesThePc := by
  refine ⟨fun _ => rfl, fun s b rnd w hb hf hw hrows => ?_⟩
  obtain ⟨hfault, -, -⟩ := hb.keeps
  have hnop : decodeWord w = .nop := (decodeFollowsOpcodeMap.2 w).mp hrows
  rw [hb.step_eq_settle hf hw, hnop]
  exact settle_clear b (hfault.trans hf)

/-! No step is stuck (R127). Only CALL and RET can stop, on an sp that names no slot (log 5). -/

theorem withBlock_goesOn (s : State) (n : Nat) (f : List Nat → State) : ∃ t, s.withBlock n f = .next t := by
  unfold State.withBlock
  split <;> exact ⟨_, rfl⟩

theorem execCall_goesOn (hsp : s.sp.toNat ≤ spMax s.params) (nnn : Addr) : ∃ t, execCall nnn s = .next t := by
  unfold execCall
  split
  case h_1 => exact ⟨_, rfl⟩
  case h_2 => exact ⟨_, rfl⟩
  case h_3 habsent => exact absurd (State.pushSlot_absent habsent) (by omega)

theorem execRet_goesOn (hsp : s.sp.toNat ≤ spMax s.params) : ∃ t, execRet s = .next t := by
  unfold execRet
  split
  case h_1 => exact ⟨_, rfl⟩
  case h_2 => exact ⟨_, rfl⟩
  case h_3 habsent => exact absurd (State.popSlot_absent habsent) (by omega)

/-- With a legal sp every instruction answers a next state. -/
theorem exec_goesOn (hsp : s.sp.toNat ≤ spMax s.params) (i : Instr) : ∃ t, exec i s = .next t := by
  cases i
  case call nnn => exact execCall_goesOn hsp nnn
  case ret => exact execRet_goesOn hsp
  case storeRegs | loadRegs | ldB | drw => exact withBlock_goesOn ..
  case skp | sknp | ldKey =>
    simp only [exec, execSkp, execSknp, execLdKey]
    split <;> exact ⟨_, rfl⟩
  all_goals exact ⟨_, rfl⟩

/-- Settling never stops a handler that goes on. -/
theorem settle_goesOn (b t : State) : ∃ u, settle b (.next t) = .next u := by
  cases hf : t.fault with
  | none => exact ⟨_, settle_clear b hf⟩
  | some c => exact ⟨_, settle_raised b hf⟩

theorem cycle_goesOn (hsp : s.sp.toNat ≤ spMax s.params) (rnd : Byte) : ∃ t, cycle rnd s = .next t := by
  rcases cycle_cases (rfl : cycle rnd s = _) with ⟨-, h⟩ | ⟨-, -, -, h⟩ | ⟨w, -, -, h⟩
  · exact ⟨_, h⟩
  · exact ⟨_, h⟩
  · obtain ⟨t, ht⟩ := exec_goesOn (s := s.commitFetch rnd w) hsp (decodeWord w)
    rw [h, ht]
    exact settle_goesOn s t

/-- Of the commands only a STEP runs an instruction; the others always answer. -/
theorem command_goesOn (hsp : s.sp.toNat ≤ spMax s.params) (c : Command) : ∃ t, command c s = .next t := by
  cases c
  case step rnd => exact cycle_goesOn hsp rnd
  case tick | reset | keySet | memLoad => exact ⟨_, rfl⟩

/-- Settles O21: the invariant keeps sp legal, and giving a command leaves sp. -/
theorem everyStepGoesOn : Obligations.EveryStepGoesOn := by
  intro s ⟨_, _, hsp, _⟩
  rcases step_eq s with ⟨-, h⟩ | ⟨c, rest, -, h⟩ <;> rw [h]
  · exact cycle_goesOn (s := { s with draws := s.draws + 1 }) hsp _
  · exact command_goesOn (s := { s with schedule := rest }) hsp c

/-! The random byte (R123). Every update but RND's commutes with a change of the field `rnd`. -/

theorem State.eaBlock_congr (h : t.params = s.params) (base n : Nat) : t.eaBlock base n = s.eaBlock base n := by
  induction n generalizing base with
  | zero => rfl
  | succ n ih => simp only [State.eaBlock, State.ea_congr h, ih]

theorem State.lowestPressed_congr (h : ∀ k, t.key k = s.key k) : t.lowestPressed = s.lowestPressed := by
  ext k
  simp only [State.lowestPressed_some, h]

theorem skipIf_withRnd (c : Bool) : State.skipIf { s with rnd := r } c = { s.skipIf c with rnd := r } := by
  cases c
  case false => rfl
  case true => rfl

theorem storeBytes_withRnd (cells : List Host.Cell) :
    State.storeBytes cells { s with rnd := r } = { s.storeBytes cells with rnd := r } := by
  induction cells generalizing s with
  | nil => rfl
  | cons c rest ih => exact ih (s := s.writeByte c.1 c.2)

theorem setRegsFrom_withRnd (k : Nat) (bs : List Byte) :
    State.setRegsFrom k bs { s with rnd := r } = { s.setRegsFrom k bs with rnd := r } := by
  induction bs generalizing s k with
  | nil => rfl
  | cons b rest ih => exact ih (s := s.setReg (Fin.ofNat 16 k) b) (k + 1)

/-- A block operation commutes with a change of the byte where its effect does. -/
theorem withBlock_withRnd {n : Nat} {f g : List Nat → State} (h : s.withBlock n f = .next t)
    (hfg : ∀ as, g as = { f as with rnd := r }) :
    State.withBlock { s with rnd := r } n g = .next { t with rnd := r } := by
  have hblock : State.eaBlock { s with rnd := r } s.I.toNat n = s.eaBlock s.I.toNat n :=
    State.eaBlock_congr (by rfl) _ _
  rcases State.withBlock_next h with ⟨as, ha, rfl⟩ | ⟨ha, rfl⟩
  · rw [State.withBlock_ok g (hblock.trans ha), hfg]
  · simp [State.withBlock, hblock, ha, State.raise]

theorem execRet_withRnd (h : execRet s = .next t) : execRet { s with rnd := r } = .next { t with rnd := r } := by
  have hslot : State.popSlot { s with rnd := r } = s.popSlot := rfl
  unfold execRet at h ⊢
  rw [hslot]
  revert h
  cases s.popSlot with
  | slot k => rintro ⟨⟩; rfl
  | raises c => rintro ⟨⟩; rfl
  | absent => rintro ⟨⟩

theorem execCall_withRnd {nnn : Addr} (h : execCall nnn s = .next t) :
    execCall nnn { s with rnd := r } = .next { t with rnd := r } := by
  have hslot : State.pushSlot { s with rnd := r } = s.pushSlot := rfl
  unfold execCall at h ⊢
  rw [hslot]
  revert h
  cases s.pushSlot with
  | slot k => rintro ⟨⟩; rfl
  | raises c => rintro ⟨⟩; rfl
  | absent => rintro ⟨⟩

theorem execLdKey_withRnd {x : Nibble} (h : execLdKey x s = .next t) :
    execLdKey x { s with rnd := r } = .next { t with rnd := r } := by
  have hkeys : State.lowestPressed { s with rnd := r } = s.lowestPressed := State.lowestPressed_congr fun _ => rfl
  unfold execLdKey at h ⊢
  rw [hkeys]
  revert h
  cases s.lowestPressed with
  | none => rintro ⟨⟩; rfl
  | some k => rintro ⟨⟩; rfl

/-- SKP and SKNP look up their key, and skip or raise, alike whatever the byte. -/
theorem exec_keySkip_withRnd (hi : ∃ x, i = .skp x ∨ i = .sknp x) (h : exec i s = .next t) :
    exec i { s with rnd := r } = .next { t with rnd := r } := by
  obtain ⟨x, hi⟩ := hi
  have hkey : State.keyIndex { s with rnd := r } (State.reg { s with rnd := r } x) = s.keyIndex (s.reg x) := rfl
  rcases hi with rfl | rfl
  all_goals
    simp only [exec, execSkp, execSknp] at h ⊢
    rw [hkey]
    revert h
    cases s.keyIndex (s.reg x) with
    | error c => rintro ⟨⟩; rfl
    | ok k => rintro ⟨⟩; exact congrArg Host.Outcome.next (skipIf_withRnd _)

/-- Settles O30: what each instruction writes is computed from other fields than `rnd`. -/
theorem onlyRndReadsTheRandomByte : Obligations.OnlyRndReadsTheRandomByte := by
  intro i s t r hi h
  cases i
  case rnd x kk => exact absurd rfl (hi x kk)
  case ret => exact execRet_withRnd h
  case call => exact execCall_withRnd h
  case ldKey => exact execLdKey_withRnd h
  case skp x => exact exec_keySkip_withRnd ⟨x, .inl rfl⟩ h
  case sknp x => exact exec_keySkip_withRnd ⟨x, .inr rfl⟩ h
  case storeRegs | ldB => exact withBlock_withRnd h fun _ => storeBytes_withRnd _
  case loadRegs => exact withBlock_withRnd h fun _ => setRegsFrom_withRnd 0 _
  case drw => exact withBlock_withRnd h fun _ => rfl
  case seImm | sneImm | seReg | sneReg => cases h; exact congrArg _ (skipIf_withRnd _)
  all_goals cases h; rfl

end Sys2Proof.Machine

/-! Control flow (41_control_flow.md). A row of the opcode map selects the instruction that `instrOfRow` reads from the
word; and the pop after a push finds the slot of the push. -/

namespace Sys2Proof.Machine

variable {s t : State}

/-! Which words select a row (30_encoding.md R100). -/

theorem instrOfRow_rowNumber {r : Nat} (hpos : 1 ≤ r) (hlt : r < 35) (w : Word) : (instrOfRow r w).rowNumber = r := by
  interval_cases r <;> rfl

/-- A word selects a row of the map iff it decodes to the instruction of that row, with the operands its format reads. -/
theorem selects_instrOfRow (row : OpcodeRow) (hr : row ∈ opcodeMap) :
    Selects row.mask row.pattern (instrOfRow row.number) := by
  intro w
  obtain ⟨hpos, hlt⟩ := exists_row_iff.mp ⟨row, hr, rfl⟩
  calc w &&& row.mask = row.pattern
      ↔ row.number = (decodeWord w).rowNumber := by
        rw [← matchesWord_iff w row hr, OpcodeRow.matchesWord, beq_iff_eq]
    _ ↔ decodeWord w = instrOfRow row.number w := by
        refine ⟨fun h => ?_, fun h => ?_⟩
        · rw [h]; exact decodeWord_eq_instrOfRow w
        · rw [h, instrOfRow_rowNumber hpos hlt]

/-! The return after a call (R141, R143). -/

/-- CALL pushes the advanced pc at sp and jumps, or takes StackOverflow (R143). -/
theorem execCall_next {nnn : Addr} (h : execCall nnn s = .next t) :
    (∃ k : Nibble, k.val = s.sp.toNat ∧ t = { s.pushPc k with pc := zextAddr nnn }) ∨
    t = { s with fault := some .stackOverflow } := by
  unfold execCall at h
  split at h
  case h_1 k hslot => cases h; exact .inl ⟨k, State.pushSlot_slot hslot, rfl⟩
  case h_2 c hraises =>
    obtain ⟨rfl, -⟩ := State.pushSlot_raises hraises
    cases h; exact .inr rfl
  case h_3 => cases h

/-- After a push the slot to pop is the one pushed: under wrap the step from 15 to 0 is undone modulo 16. -/
theorem popSlot_pushPc (s : State) (k : Nibble) : (s.pushPc k).popSlot = .slot k := by
  cases hp : s.params.stackPolicy with
  | fault =>
    have hsp : (s.pushPc k).sp.toNat = k.val + 1 := State.spAfterPush_fault hp k
    rw [State.popSlot_fault (s := s.pushPc k) hp (by omega) (by omega)]
    exact congrArg StackSlot.slot (Fin.ext (Nat.sub_eq_of_eq_add hsp))
  | wrap =>
    have hsp : (s.pushPc k).sp.toNat = (k.val + 1) % 16 := State.spAfterPush_wrap hp k
    rw [State.popSlot_wrap (s := s.pushPc k) hp, hsp]
    exact congrArg StackSlot.slot (Fin.ext (by rw [Fin.val_ofNat]; omega))

/-- Settles O38: the RET pops the slot that the CALL pushed, which holds pc and whose number is sp. -/
theorem returnComesBackAfterCall : Obligations.ReturnComesBackAfterCall := by
  intro nnn s t _ hclear hcall ht
  obtain ⟨k, hk, rfl⟩ | rfl := execCall_next hcall
  · have hpop : State.popSlot { s.pushPc k with pc := zextAddr nnn } = .slot k := popSlot_pushPc s k
    refine ⟨State.popPc { s.pushPc k with pc := zextAddr nnn } k, ?_, ?_, ?_, hclear⟩
    · simp only [exec, execRet, hpop]
    · simp
    · simp [hk]
  · cases ht

/-! Clearing the screen and the jumps (R140, R142, R144). -/

/-- Settles O33: every pixel of the cleared buffer is off. -/
theorem clsTurnsAllPixelsOff : Obligations.ClsTurnsAllPixelsOff :=
  ⟨selects_instrOfRow ⟨1, 0xF00F, 0x0000⟩ (by decide), fun _ => ⟨_, rfl, Video.get_clear, rfl⟩⟩

theorem zextAddr_toNat (a : Addr) : (zextAddr a).toNat = a.toNat :=
  BitVec.toNat_setWidth_of_le (by decide)

theorem zextByte_toNat (b : Byte) : (zextByte b).toNat = b.toNat :=
  BitVec.toNat_setWidth_of_le (by decide)

/-- The target of JP V0, nnn is the sum as a number: it is at most 0xFFF + 0xFF. -/
theorem zextAddr_add_zextByte_toNat (a : Addr) (b : Byte) : (zextAddr a + zextByte b).toNat = a.toNat + b.toNat := by
  have := a.isLt
  have := b.isLt
  rw [BitVec.toNat_add, zextAddr_toNat, zextByte_toNat]; omega

/-- Settles O35: an address keeps its value when it is widened. -/
theorem jpLoadsThePc : Obligations.JpLoadsThePc :=
  ⟨selects_instrOfRow ⟨3, 0xF000, 0x1000⟩ (by decide), fun nnn _ => ⟨_, rfl, zextAddr_toNat nnn, rfl⟩⟩

/-- Settles O39: the sum fits in pc, so that nothing is reduced. -/
theorem jpV0AddsRegisterZero : Obligations.JpV0AddsRegisterZero :=
  ⟨selects_instrOfRow ⟨5, 0xF000, 0xB000⟩ (by decide),
    fun nnn s => ⟨_, rfl, zextAddr_add_zextByte_toNat nnn (s.reg 0), rfl⟩⟩

end Sys2Proof.Machine

/-! Conditional skips (42_conditional_skip.md). The four instructions differ in the comparison alone: the advance of pc is
one lemma about `State.skipIf`, and each comparison of the model is read as the proposition of its rule. -/

namespace Sys2Proof.Machine

/-- A skip whose test decides `p` is one advance of pc where `p` holds, and no change where it does not. -/
theorem State.skipIf_eq_ite {s : State} {c : Bool} {p : Prop} [Decidable p] (hc : c = true ↔ p) :
    s.skipIf c = if p then { s with pc := s.pc + 2 } else s := by
  by_cases hp : p
  · rw [if_pos hp, hc.mpr hp]; rfl
  · rw [if_neg hp, Bool.eq_false_iff.mpr (mt hc.mp hp)]; rfl

/-- A skip on equal bytes (R150, R152). -/
theorem State.skipIf_beq (s : State) (a b : Byte) :
    s.skipIf (a == b) = if a = b then { s with pc := s.pc + 2 } else s :=
  State.skipIf_eq_ite beq_iff_eq

/-- A skip on different bytes (R151, R153). -/
theorem State.skipIf_bne (s : State) (a b : Byte) :
    s.skipIf (a != b) = if a ≠ b then { s with pc := s.pc + 2 } else s :=
  State.skipIf_eq_ite bne_iff_ne

/-- Settles O41: rows 6 and 7 of the map, which compare V[x] with the immediate byte. -/
theorem immediateSkipsCompare : Obligations.ImmediateSkipsCompare :=
  ⟨selects_instrOfRow ⟨6, 0xF000, 0x3000⟩ (by decide), selects_instrOfRow ⟨7, 0xF000, 0x4000⟩ (by decide),
    fun x kk s => ⟨congrArg Host.Outcome.next (s.skipIf_beq (s.reg x) kk),
      congrArg Host.Outcome.next (s.skipIf_bne (s.reg x) kk)⟩⟩

/-- Settles O42: rows 8 and 9 of the map, which compare V[x] with V[y]. -/
theorem registerSkipsCompare : Obligations.RegisterSkipsCompare :=
  ⟨selects_instrOfRow ⟨8, 0xF000, 0x5000⟩ (by decide), selects_instrOfRow ⟨9, 0xF000, 0x9000⟩ (by decide),
    fun x y s => ⟨congrArg Host.Outcome.next (s.skipIf_beq (s.reg x) (s.reg y)),
      congrArg Host.Outcome.next (s.skipIf_bne (s.reg x) (s.reg y))⟩⟩

end Sys2Proof.Machine

/-! Register ALU without flags (43_register_alu.md R160 to R165). Each of the six instructions is one write of V[x]: the
frame is one lemma about that write, and what is left of each rule is the value written. -/

namespace Sys2Proof.Machine

theorem State.reg_setReg_self (s : State) (x : Nibble) (b : Byte) : (s.setReg x b).reg x = b := by
  rw [State.reg_setReg, if_pos rfl]

/-- The write of a register leaves the other registers and all other state; V[15] is not special (R160 to R165). -/
theorem State.setReg_frame (s : State) (x : Nibble) (b : Byte) :
    (∀ r, r ≠ x → (s.setReg x b).reg r = s.reg r) ∧ s.setReg x b = { s with V := (s.setReg x b).V } :=
  ⟨fun r hr => by rw [State.reg_setReg, if_neg hr], rfl⟩

/-- Settles O43: rows 10 and 11 of the map, which write the immediate byte and the sum of bytes to V[x]. -/
theorem immediateLoadAndAdd : Obligations.ImmediateLoadAndAdd := by
  refine ⟨selects_instrOfRow ⟨10, 0xF000, 0x6000⟩ (by decide), selects_instrOfRow ⟨11, 0xF000, 0x7000⟩ (by decide),
    fun x kk s => ⟨⟨_, rfl, ?load, s.setReg_frame x _⟩, ⟨_, rfl, ?add, s.setReg_frame x _⟩⟩⟩
  case load => exact s.reg_setReg_self x kk
  case add => rw [State.reg_setReg_self, BitVec.toNat_add]

/-- Settles O44: rows 12 to 15 of the map, which write V[y] or a bitwise operation of V[x] and V[y] to V[x]. -/
theorem copyAndBitwiseOperations : Obligations.CopyAndBitwiseOperations := by
  refine ⟨selects_instrOfRow ⟨12, 0xF00F, 0x8000⟩ (by decide), selects_instrOfRow ⟨13, 0xF00F, 0x8001⟩ (by decide),
    selects_instrOfRow ⟨14, 0xF00F, 0x8002⟩ (by decide), selects_instrOfRow ⟨15, 0xF00F, 0x8003⟩ (by decide),
    fun x y s => ⟨⟨_, rfl, ?copy, s.setReg_frame x _⟩, ⟨_, rfl, fun j => ?or, s.setReg_frame x _⟩,
      ⟨_, rfl, fun j => ?and, s.setReg_frame x _⟩, ⟨_, rfl, fun j => ?xor, s.setReg_frame x _⟩⟩⟩
  case copy => exact s.reg_setReg_self x (s.reg y)
  case or => rw [State.reg_setReg_self, BitVec.getLsbD_or]
  case and => rw [State.reg_setReg_self, BitVec.getLsbD_and]
  case xor => rw [State.reg_setReg_self, BitVec.getLsbD_xor]

end Sys2Proof.Machine

/-! Memory and index (44_memory_index.md R182 to R185). LD [I], Vx and LD B, Vx differ in the bytes alone: what a block
store in reach does is one lemma, and each of the two names its bytes. -/

namespace Sys2Proof.Machine

variable {s : State} {as : List Nat} {bs : List Byte}

/-- Settles O49: row 23 of the map; the sum is reduced modulo 65536 alone. -/
theorem fontAddressIsBasePlusFiveTimes : Obligations.FontAddressIsBasePlusFiveTimes :=
  ⟨selects_instrOfRow ⟨23, 0xF0FF, 0xF029⟩ (by decide), fun _ _ => ⟨_, rfl, BitVec.toNat_ofNat .., rfl⟩⟩

/-! Block stores (R183, R185). -/

/-- The `i`-th address of a resolved block is the one that `base + i` resolves to. -/
theorem State.getElem_eaBlock {base n i a : Nat} (has : s.eaBlock base n = .ok as) (hi : i < as.length)
    (ha : s.ea .data (base + i) = .ok a) : as[i] = a :=
  Except.ok.inj (((State.eaBlock_ok has).2 i hi).symm.trans ha)

/-- A resolved block holds no other address. -/
theorem State.ea_of_mem_eaBlock {base n a : Nat} (has : s.eaBlock base n = .ok as) (ha : a ∈ as) :
    ∃ i < n, s.ea .data (base + i) = .ok a := by
  obtain ⟨hlen, hget⟩ := State.eaBlock_ok has
  obtain ⟨i, hi, rfl⟩ := List.mem_iff_getElem.mp ha
  exact ⟨i, hlen ▸ hi, hget i hi⟩

/-- `t` is `s` with the bytes `bs` stored from I on and nothing else changed: the latch and I stay too. -/
structure StoresBlock (s : State) (bs : List Byte) (t : State) : Prop where
  stored : ∀ (i a : Nat) (hi : i < bs.length), s.ea .data (s.I.toNat + i) = .ok a → t.readByte a = bs[i]
  kept : ∀ a, (∀ i < bs.length, s.ea .data (s.I.toNat + i) ≠ .ok a) → t.readByte a = s.readByte a
  frame : t = { s with mem := t.mem }

/-- The stores to a resolved block all stand, because its addresses differ (20_memory.md R69). -/
theorem storeBytes_storesBlock (hm : Memory.wf s.params s.mem = true) (hn : bs.length ≤ 4096)
    (has : s.eaBlock s.I.toNat bs.length = .ok as) : StoresBlock s bs (s.storeBytes (as.zip bs)) := by
  have hlen : as.length = bs.length := (State.eaBlock_ok has).1
  have hrange : ∀ c ∈ as.zip bs, c.1 ≤ 0xFFF := fun _ hc => State.eaBlock_le has (List.of_mem_zip hc).1
  refine ⟨fun i a hi ha => ?stored, fun a ha => ?kept, s.storeBytes_eq_with_mem _⟩
  case stored =>
    have hia : i < as.length := hlen ▸ hi
    have hcell : (a, bs[i]) ∈ as.zip bs :=
      List.mem_iff_getElem.mpr ⟨i, by simp [hia, hi], by simp [State.getElem_eaBlock has hia ha]⟩
    have hdiffer : ((as.zip bs).map Prod.fst).Nodup := by
      rw [List.map_fst_zip hlen.le]
      exact State.eaBlock_nodup has hn
    exact State.readByte_storeBytes_mem s hm _ hrange hdiffer hcell
  case kept =>
    have hother : ∀ c ∈ as.zip bs, c.1 ≠ a := by
      rintro c hc rfl
      obtain ⟨i, hi, hea⟩ := State.ea_of_mem_eaBlock has (List.of_mem_zip hc).1
      exact ha i hi hea
    exact State.readByte_storeBytes_other s hm _ hrange hother

/-- A block store in reach completes, from a faulted state as well. -/
theorem withBlock_storesBlock {n : Nat} (hm : Memory.wf s.params s.mem = true) (hbs : bs.length = n) (hn : n ≤ 4096)
    (h : BlockInReach s n) :
    ∃ t, s.withBlock n (fun addrs => s.storeBytes (addrs.zip bs)) = .next t ∧ StoresBlock s bs t := by
  subst hbs
  obtain ⟨as, has⟩ := State.eaBlock_of_reach h
  exact ⟨_, State.withBlock_ok _ has, storeBytes_storesBlock hm hn has⟩

/-- Settles O50: row 24 of the map; the bytes of the block are V[0] to V[x]. -/
theorem registerBlockStores : Obligations.RegisterBlockStores := by
  refine ⟨selects_instrOfRow ⟨24, 0xF0FF, 0xF055⟩ (by decide), fun x s hm => ⟨fun h => ?_, State.withBlock_not_reach _⟩⟩
  have hlen := State.regsUpTo_length (s := s) x
  obtain ⟨t, ht, hstored, hkept, hframe⟩ := withBlock_storesBlock hm hlen (by omega) h
  refine ⟨t, ht, fun r a hr ha => ?_, fun a ha => hkept a fun i hi => ?_, hframe⟩
  · have hi : r.val < (s.regsUpTo x).length := hlen ▸ Nat.lt_succ_of_le hr
    exact (hstored r a hi ha).trans (State.regsUpTo_getElem x hi r.isLt)
  · have hix : i ≤ x.val := by omega
    exact ha ⟨i, hix.trans_lt x.isLt⟩ hix

/-- Settles O52: row 26 of the map; the bytes of the block are the three digits. -/
theorem bcdStoresThreeDigits : Obligations.BcdStoresThreeDigits := by
  refine ⟨selects_instrOfRow ⟨26, 0xF0FF, 0xF033⟩ (by decide), fun x s hm => ⟨fun h => ?_, State.withBlock_not_reach _⟩⟩
  have hlen : (bcdDigits (s.reg x)).length = 3 := rfl
  obtain ⟨t, ht, hstored, hkept, hframe⟩ := withBlock_storesBlock hm hlen (by omega) h
  have hdigit (r a : Nat) (hr : r < 3) (ha : s.ea .data (s.I.toNat + r) = .ok a) :
      (t.readByte a).toNat = (s.reg x).toNat / 10 ^ (2 - r) % 10 :=
    (congrArg BitVec.toNat (hstored r a (hlen ▸ hr) ha)).trans (bcdDigits_getElem_toNat _ _)
  have hhundreds : (s.reg x).toNat / 100 % 10 = (s.reg x).toNat / 100 := by have := (s.reg x).isLt; omega
  have hones : (s.reg x).toNat / 1 % 10 = (s.reg x).toNat % 10 := by rw [Nat.div_one]
  exact ⟨t, ht, fun a ha => (hdigit 0 a (by omega) ha).trans hhundreds, fun a ha => hdigit 1 a (by omega) ha,
    fun a ha => (hdigit 2 a (by omega) ha).trans hones, hkept, hframe⟩

/-! Block loads (R184). -/

/-- Settles O51: row 25 of the map; register r takes the byte at the r-th address of the block. -/
theorem registerBlockLoads : Obligations.RegisterBlockLoads := by
  refine ⟨selects_instrOfRow ⟨25, 0xF0FF, 0xF065⟩ (by decide), fun x s => ⟨fun h => ?_, State.withBlock_not_reach _⟩⟩
  obtain ⟨as, has⟩ := State.eaBlock_of_reach h
  have hlen : as.length = x.val + 1 := (State.eaBlock_ok has).1
  have hbytes : (as.map s.readByte).length = x.val + 1 := by rw [List.length_map, hlen]
  refine ⟨_, State.withBlock_ok _ has, fun r a hr ha => ?loaded, fun r hr => ?kept, s.setRegsFrom_eq_with_V ..⟩
  case loaded =>
    have hi : r.val < as.length := hlen ▸ Nat.lt_succ_of_le hr
    have haddr : as[r.val] = a := State.getElem_eaBlock has hi ha
    rw [State.reg_setRegsFrom _ _ (by omega), dif_pos (by omega)]
    simp [haddr]
  case kept =>
    have hxr : x.val < r.val := hr
    rw [State.reg_setRegsFrom _ _ (by omega), dif_neg (by omega)]

end Sys2Proof.Machine

/-! Random byte (45_random.md R190). RND is one write of V[x], as the register ALU instructions are; the byte written is
the conjunction of the STEP's byte and the mask. -/

namespace Sys2Proof.Machine

/-- Settles O53: row 27 of the map, which writes the bitwise AND of the STEP's byte and kk to V[x]. -/
theorem rndMasksTheRandomByte : Obligations.RndMasksTheRandomByte := by
  refine ⟨selects_instrOfRow ⟨27, 0xF000, 0xC000⟩ (by decide),
    fun x kk s => ⟨_, rfl, fun j => ?masked, s.setReg_frame x _⟩⟩
  case masked => rw [State.reg_setReg_self, BitVec.getLsbD_and]

end Sys2Proof.Machine

/-! Keypad skips (46_input.md R195, R196, R198). A key instruction looks its key up once: with the key found it is a skip
on that key, and with none it raises KeyIndexRange. -/

namespace Sys2Proof.Machine

variable {s : State} {x k : Nibble}

/-- Both clauses of R198 that give a key give V[x] mod 16: a byte of at most 15 is its own remainder. -/
theorem State.keyIndex_resolved {v : Byte} (h : v.toNat ≤ 15 ∨ s.params.oobPolicy = .wrap) (hk : k.val = v.toNat % 16) :
    s.keyIndex v = .ok k := by
  obtain rfl : k = Fin.ofNat 16 v.toNat := Fin.ext hk
  exact h.elim State.keyIndex_low (State.keyIndex_wrap v)

theorem exec_skp_of_key (h : s.keyIndex (s.reg x) = .ok k) : exec (.skp x) s = .next (s.skipIf (s.key k)) := by
  simp only [exec, execSkp, h]

theorem exec_sknp_of_key (h : s.keyIndex (s.reg x) = .ok k) : exec (.sknp x) s = .next (s.skipIf (!s.key k)) := by
  simp only [exec, execSknp, h]

theorem exec_keySkip_of_no_key {i : Instr} {c : Cause} (hi : i = .skp x ∨ i = .sknp x)
    (h : s.keyIndex (s.reg x) = .error c) : exec i s = s.raise c := by
  rcases hi with rfl | rfl
  · simp only [exec, execSkp, h]
  · simp only [exec, execSknp, h]

/-- Settles O54: rows 28 and 29 of the map, which skip on the key V[x] or raise the fault of its lookup. -/
theorem keySkipsReadTheKeypad : Obligations.KeySkipsReadTheKeypad := by
  refine ⟨selects_instrOfRow ⟨28, 0xF00F, 0xE00E⟩ (by decide), selects_instrOfRow ⟨29, 0xF00F, 0xE001⟩ (by decide),
    fun x s => ⟨fun k hres hk => ?key, fun hv hp => ?noKey⟩⟩
  case key =>
    have hkey : s.keyIndex (s.reg x) = .ok k := State.keyIndex_resolved hres hk
    have hoff : (!s.key k) = true ↔ s.key k = false := Iff.of_eq (Bool.not_eq_true' _)
    rw [exec_skp_of_key hkey, exec_sknp_of_key hkey]
    exact ⟨congrArg Host.Outcome.next (State.skipIf_eq_ite Iff.rfl),
      congrArg Host.Outcome.next (State.skipIf_eq_ite hoff)⟩
  case noKey =>
    have hkey : s.keyIndex (s.reg x) = .error .keyIndexRange := State.keyIndex_fault hp hv.not_ge
    exact ⟨exec_keySkip_of_no_key (.inl rfl) hkey, exec_keySkip_of_no_key (.inr rfl) hkey⟩

end Sys2Proof.Machine

/-! The host's events and outputs (60_exceptions.md R224, R227, R229, R230, R237; 70_reset_and_hazards.md R250). A step
is the command that the host has next; an event other than RESET has its effect on a core that is not faulted. -/

namespace Sys2Proof.Machine

variable {i : Instr} {s t b : State} {c : Command} {rnd : Byte}

/-- The host's event is carried out on the state with it taken from the schedule. -/
theorem TakesEvent.step_eq_command (h : TakesEvent s b c) : step s = command c b := by
  obtain ⟨rest, hs, rfl⟩ := h
  simp [step, advance, hs]

/-- Taking an event from the schedule changes the schedule alone. -/
theorem TakesEvent.keeps (h : TakesEvent s b c) :
    b.fault = s.fault ∧ b.DT = s.DT ∧ b.ST = s.ST ∧ b.keypad = s.keypad ∧ b.mem = s.mem ∧ b.params = s.params := by
  obtain ⟨rest, -, rfl⟩ := h
  exact ⟨rfl, rfl, rfl, rfl, rfl, rfl⟩

theorem State.unlessFaulted_of_clear (h : s.fault = none) : s.unlessFaulted t = t := by
  simp [State.unlessFaulted, h]

theorem State.unlessFaulted_of_faulted (h : s.fault ≠ none) : s.unlessFaulted t = s := by
  obtain ⟨c, hc⟩ := Option.ne_none_iff_exists'.mp h
  simp [State.unlessFaulted, hc]

/-- An event answers its effect, or the state as it was. -/
theorem State.unlessFaulted_eq_or (s t : State) : s.unlessFaulted t = t ∨ s.unlessFaulted t = s := by
  by_cases h : s.fault = none
  · exact .inl (State.unlessFaulted_of_clear h)
  · exact .inr (State.unlessFaulted_of_faulted h)

/-- A faulted core ignores every command but RESET (R224). -/
theorem command_of_faulted (hf : s.fault ≠ none) (hc : c ≠ .reset) : command c s = .next s := by
  cases c
  case step => exact cycle_faulted hf
  case reset => exact absurd rfl hc
  case tick | keySet | memLoad => exact congrArg _ (State.unlessFaulted_of_faulted hf)

theorem TakesEvent.step_of_faulted (h : TakesEvent s b c) (hf : s.fault ≠ none) (hc : c ≠ .reset) :
    step s = .next b := by
  rw [h.step_eq_command, command_of_faulted (h.keeps.1 ▸ hf) hc]

/-! TICK, KeySet, MemLoad. -/

/-- The count stops at 0 (R227). -/
theorem countDown_toNat (t : Byte) : (countDown t).toNat = t.toNat - 1 := by
  unfold countDown
  split <;> bv_omega

/-- Settles O23: TICK counts both timers down, unless the core ignores it. -/
theorem tickCountsTimersDown : Obligations.TickCountsTimersDown := by
  intro s b hb
  obtain ⟨hfault, hDT, hST, -⟩ := hb.keeps
  refine ⟨fun hf => ⟨b.tick, ?_, ?_, ?_, rfl⟩, fun hf => hb.step_of_faulted hf nofun⟩
  · rw [hb.step_eq_command, command, State.unlessFaulted_of_clear (hfault.trans hf)]
  · rw [State.tick_DT, countDown_toNat, hDT]
  · rw [State.tick_ST, countDown_toNat, hST]

/-- A key after a key event. -/
theorem State.key_keySet (s : State) (k j : Nibble) (p : Bool) :
    (s.keySet k p).key j = if j = k then p else s.key j := by
  simp only [State.key, State.keySet, Vector.getElem_set, Fin.ext_iff, eq_comm]

/-- Settles O24: KeySet writes one key, unless the core ignores it. -/
theorem keySetSetsOneKey : Obligations.KeySetSetsOneKey := by
  intro s b k p hb
  obtain ⟨hfault, -, -, hkeypad, -⟩ := hb.keeps
  refine ⟨fun hf => ⟨b.keySet k p, ?_, ?_, fun j hj => ?_, rfl⟩, fun hf => hb.step_of_faulted hf nofun⟩
  · rw [hb.step_eq_command, command, State.unlessFaulted_of_clear (hfault.trans hf)]
  · rw [State.key_keySet, if_pos rfl]
  · rw [State.key_keySet, if_neg hj, State.key, hkeypad, State.key]

/-- Settles O25: MemLoad writes one byte of memory, unless the core ignores it. -/
theorem memLoadWritesOneByte : Obligations.MemLoadWritesOneByte := by
  intro s b a v hb hm
  obtain ⟨hfault, -, -, -, hmem, hparams⟩ := hb.keeps
  have hbm : Memory.wf b.params b.mem = true := by rw [hparams, hmem]; exact hm
  refine ⟨fun hf => ⟨b.writeByte a.toNat v, ?_, ?_, fun c hc => ?_, rfl⟩, fun hf => hb.step_of_faulted hf nofun⟩
  · rw [hb.step_eq_command, command, State.unlessFaulted_of_clear (hfault.trans hf)]
  · rw [State.readByte_writeByte b hbm, if_pos rfl]
  · rw [State.readByte_writeByte b hbm, if_neg hc, State.readByte_of_mem s b hmem hparams]

/-! The sound output. -/

theorem State.soundOn_iff (s : State) : s.soundOn = true ↔ s.ST.toNat ≠ 0 := by
  rw [State.soundOn, bne_iff_ne, ne_eq, ← BitVec.toNat_inj]
  rfl

/-- Settles O26: a byte other than 0 is one whose number is other than 0. -/
theorem soundFollowsTheSoundTimer : Obligations.SoundFollowsTheSoundTimer := State.soundOn_iff

/-! RESET. -/

/-- RESET puts the block's state where reset has it, for the parameters it finds (R250). -/
theorem resetCommand_atReset (s : State) : AtReset s.resetCommand := resetWith_atReset s.params

/-- Settles O7: what RESET keeps is no state of the block. -/
theorem resetCommandResetsEverything : Obligations.ResetCommandResetsEverything := by
  intro s b hb
  obtain ⟨-, -, -, -, -, hparams⟩ := hb.keeps
  exact ⟨b.resetCommand, hb.step_eq_command, resetCommand_atReset b, rfl, hparams, rfl⟩

/-! What commands leave alone. -/

/-- DT changes by its load alone (47_timers.md R206). -/
theorem exec_DT (h : exec i s = .next t) : t.DT = s.DT ∨ ∃ x, i = .setDT x ∧ t.DT = s.reg x := by
  by_cases hi : ∃ x, i = .setDT x
  · obtain ⟨x, rfl⟩ := hi
    cases h; exact .inr ⟨x, rfl, rfl⟩
  · exact .inl ((exec_writesOnlyListed h).DT (not_exists.mp hi))

/-- ST changes by its load alone (47_timers.md R207). -/
theorem exec_ST (h : exec i s = .next t) : t.ST = s.ST ∨ ∃ x, i = .setST x ∧ t.ST = s.reg x := by
  by_cases hi : ∃ x, i = .setST x
  · obtain ⟨x, rfl⟩ := hi
    cases h; exact .inr ⟨x, rfl, rfl⟩
  · exact .inl ((exec_writesOnlyListed h).ST (not_exists.mp hi))

/-- What the command `c` may do to the keypad, the timers and the parameters (R227, R230; 00_scope.md R4). -/
structure ChangesKeysAndTimersByRule (c : Command) (s t : State) : Prop where
  keypad : t.keypad ≠ s.keypad → (∃ k p, c = .keySet k p) ∨ c = .reset
  DT : t.DT ≠ s.DT → (c = .tick ∨ c = .reset) ∨ ∃ w x, s.fetchWord = .ok w ∧ decodeWord w = .setDT x ∧ t.DT = s.reg x
  ST : t.ST ≠ s.ST → (c = .tick ∨ c = .reset) ∨ ∃ w x, s.fetchWord = .ok w ∧ decodeWord w = .setST x ∧ t.ST = s.reg x
  params : t.params = s.params

namespace ChangesKeysAndTimersByRule

theorem of_eq (hk : t.keypad = s.keypad) (hDT : t.DT = s.DT) (hST : t.ST = s.ST) (hp : t.params = s.params) :
    ChangesKeysAndTimersByRule c s t :=
  ⟨absurd hk, absurd hDT, absurd hST, hp⟩

theorem of_unlessFaulted (h : ChangesKeysAndTimersByRule c s t) :
    ChangesKeysAndTimersByRule c s (s.unlessFaulted t) := by
  rcases s.unlessFaulted_eq_or t with he | he <;> rw [he]
  · exact h
  · exact of_eq rfl rfl rfl rfl

/-- A STEP does nothing, takes a fault, or runs the one instruction it fetches. -/
theorem of_cycle (h : cycle rnd s = .next t) : ChangesKeysAndTimersByRule (.step rnd) s t := by
  rcases cycle_next h with ⟨-, rfl⟩ | ⟨-, _, -, rfl⟩ | ⟨w, -, hw, he, -⟩
  · exact of_eq rfl rfl rfl rfl
  · exact of_eq rfl rfl rfl rfl
  · have hframe := exec_writesOnlyListed he
    refine ⟨absurd hframe.keypad, fun hne => .inr ?_, fun hne => .inr ?_, hframe.params⟩
    · obtain ⟨x, hi, hx⟩ := (exec_DT he).resolve_left hne
      exact ⟨w, x, hw, hi, hx⟩
    · obtain ⟨x, hi, hx⟩ := (exec_ST he).resolve_left hne
      exact ⟨w, x, hw, hi, hx⟩

theorem of_command (h : command c s = .next t) : ChangesKeysAndTimersByRule c s t := by
  cases c
  case step => exact of_cycle h
  case tick =>
    cases h
    exact of_unlessFaulted ⟨absurd rfl, fun _ => .inl (.inl rfl), fun _ => .inl (.inl rfl), rfl⟩
  case reset =>
    cases h
    exact ⟨fun _ => .inr rfl, fun _ => .inl (.inr rfl), fun _ => .inl (.inr rfl), rfl⟩
  case keySet k p =>
    cases h
    exact of_unlessFaulted ⟨fun _ => .inl ⟨k, p, rfl⟩, absurd rfl, absurd rfl, rfl⟩
  case memLoad =>
    cases h
    exact of_unlessFaulted (of_eq rfl rfl rfl rfl)

end ChangesKeysAndTimersByRule

/-- Settles O27: a step is the command the host has next, and each command keeps to its rule. -/
theorem onlyTheirCommandsChangeKeysAndTimers : Obligations.OnlyTheirCommandsChangeKeysAndTimers := by
  intro s t h
  rcases step_eq s with ⟨-, he⟩ | ⟨c, rest, hs, he⟩ <;> rw [he] at h
  · obtain ⟨hk, hDT, hST, hp⟩ := ChangesKeysAndTimersByRule.of_cycle h
    exact ⟨fun hne => (hk hne).elim nofun nofun, fun hne => (hDT hne).imp_left (Or.elim · nofun nofun),
      fun hne => (hST hne).imp_left (Or.elim · nofun nofun), hp⟩
  · obtain ⟨hk, hDT, hST, hp⟩ := ChangesKeysAndTimersByRule.of_command h
    have hnext {c' : Command} (hc : c = c') : s.schedule = c' :: rest := hc ▸ hs
    exact ⟨fun hne => ⟨rest, (hk hne).imp (fun ⟨k, p, hc⟩ => ⟨k, p, hnext hc⟩) hnext⟩,
      fun hne => (hDT hne).imp_left fun hc => ⟨rest, hc.imp hnext hnext⟩,
      fun hne => (hST hne).imp_left fun hc => ⟨rest, hc.imp hnext hnext⟩, hp⟩

end Sys2Proof.Machine

/-! Addresses, keys and memory (20_memory.md, 46_input.md R197, R198). Each resolution has a lemma per row of its rule;
a canonical memory is determined by what it reads. -/

namespace Sys2Proof.Machine

variable {s : State} {p : Params} {lo lo' a : Nat} {m m' : Memory} {e e' : Host.Cell}

/-- Settles O9: an address in range, and one out of range under each policy. -/
theorem addressesResolveByPolicy : Obligations.AddressesResolveByPolicy := fun _ _ =>
  ⟨fun ha => ⟨State.ea_low _ ha, State.ea_low _ ha⟩, fun _ hp => ⟨State.ea_wrap _ _ hp, State.ea_wrap _ _ hp⟩,
    fun ha hp => ⟨State.ea_fault _ hp ha.not_ge, State.ea_fault _ hp ha.not_ge⟩⟩

/-- Settles O10: a byte in range names its own key, and one out of range its key modulo 16 or none, by the policy. -/
theorem keyIndexResolvesByPolicy : Obligations.KeyIndexResolvesByPolicy := fun _ v =>
  ⟨fun hv => ⟨_, State.keyIndex_low hv, Nat.mod_eq_of_lt (Nat.lt_succ_of_le hv)⟩,
    fun _ hp => ⟨_, State.keyIndex_wrap v hp, rfl⟩, fun hv hp => State.keyIndex_fault hp hv.not_ge⟩

/-! The key wait (46_input.md R197). -/

/-- Settles O55: the scan of the keys finds none, or the smallest pressed one. -/
theorem keyWaitStoresLowestKey : Obligations.KeyWaitStoresLowestKey := by
  refine ⟨selects_instrOfRow ⟨30, 0xF0FF, 0xF00A⟩ (by decide), fun x s => ⟨fun hnone => ?wait, fun k hk hmin => ?key⟩⟩
  case wait =>
    simp only [exec, execLdKey, State.lowestPressed_none.mpr hnone]
    rfl
  case key =>
    have hlow : s.lowestPressed = some k := State.lowestPressed_some.mpr ⟨hk, hmin⟩
    refine ⟨s.setReg x (BitVec.ofNat 8 k.val), ?_, ?_, s.setReg_frame x _⟩
    · simp only [exec, execLdKey, hlow]
    · rw [State.reg_setReg_self, BitVec.toNat_ofNat]
      omega

/-! Canonical memories (log 9). -/

/-- In a canonical memory what is listed at an address can be told from what it reads as. -/
theorem Memory.find_eq_of_read (h : Memory.wfFrom p lo m = true) (a : Nat) :
    Memory.find a m = if Memory.read p m a = resetByte p a then none else some (Memory.read p m a) := by
  cases hf : Memory.find a m with
  | none => simp [Memory.read, hf]
  | some v => simp [Memory.read, hf, (Memory.find_ne_reset h hf).1]

/-- The head of a canonical memory has the smallest listed address. -/
theorem Memory.head_le_of_find (h : Memory.wfFrom p lo (e :: m) = true) (hf : Memory.find a (e :: m) ≠ none) :
    e.1 ≤ a := by
  simp only [Memory.wfFrom, Bool.and_eq_true, decide_eq_true_eq] at h
  by_contra hlt
  have hne : a ≠ e.1 := by omega
  have htail : Memory.find a m = none := Memory.find_of_wfFrom h.2 (by omega)
  exact hf (by simp [Memory.find, hne, htail])

theorem Memory.find_head (e : Host.Cell) (m : Memory) : Memory.find e.1 (e :: m) = some e.2 := by
  simp [Memory.find]

/-- Two canonical memories that list the same bytes at the same addresses have the same head. -/
theorem Memory.head_eq_of_find_eq (h : Memory.wfFrom p lo (e :: m) = true) (h' : Memory.wfFrom p lo' (e' :: m') = true)
    (hf : ∀ a, Memory.find a (e :: m) = Memory.find a (e' :: m')) : e = e' := by
  have hle : e.1 ≤ e'.1 := Memory.head_le_of_find h (by simp [hf, Memory.find_head])
  have hge : e'.1 ≤ e.1 := Memory.head_le_of_find h' (by simp [← hf, Memory.find_head])
  have haddr : e.1 = e'.1 := Nat.le_antisymm hle hge
  have hbyte : some e.2 = some e'.2 := by rw [← Memory.find_head e m, hf, haddr, Memory.find_head]
  exact Prod.ext haddr (Option.some.inj hbyte)

/-- The tail of a canonical memory lists what the memory lists, but for the head. -/
theorem Memory.find_tail (h : Memory.wfFrom p lo (e :: m) = true) (a : Nat) :
    Memory.find a m = if a = e.1 then none else Memory.find a (e :: m) := by
  simp only [Memory.wfFrom, Bool.and_eq_true] at h
  by_cases ha : a = e.1
  · rw [if_pos ha, Memory.find_of_wfFrom h.2 (by omega)]
  · simp [Memory.find, ha]

/-- Canonical memories that list the same bytes at the same addresses are the same list. -/
theorem Memory.eq_of_find_eq (h : Memory.wfFrom p lo m = true) (h' : Memory.wfFrom p lo' m' = true)
    (hf : ∀ a, Memory.find a m = Memory.find a m') : m = m' := by
  induction m generalizing lo lo' m' with
  | nil =>
    cases m' with
    | nil => rfl
    | cons e' m' => cases (hf e'.1).trans (Memory.find_head e' m')
  | cons e m ih =>
    cases m' with
    | nil => cases (hf e.1).symm.trans (Memory.find_head e m)
    | cons e' m' =>
      obtain rfl : e = e' := Memory.head_eq_of_find_eq h h' hf
      have htail (a : Nat) : Memory.find a m = Memory.find a m' := by
        rw [Memory.find_tail h, Memory.find_tail h', hf]
      simp only [Memory.wfFrom, Bool.and_eq_true] at h h'
      rw [ih h.2 h'.2 htail]

/-- Settles O12: what a canonical memory lists is told by what it reads. -/
theorem canonicalMemoriesAreEqual : Obligations.CanonicalMemoriesAreEqual := by
  intro p m m' h h' hread
  refine Memory.eq_of_find_eq h h' fun a => ?_
  rw [Memory.find_eq_of_read h, Memory.find_eq_of_read h', hread]

end Sys2Proof.Machine

/-! The call stack at its bounds (41_control_flow.md R141, R143; log 5). -/

namespace Sys2Proof.Machine

variable {s : State} {k : Nibble}

theorem State.pushSlot_overflow (hp : s.params.stackPolicy = .fault) (hsp : s.sp.toNat = 16) :
    s.pushSlot = .raises .stackOverflow := by
  simp only [State.pushSlot, hp, hsp, if_true]

theorem State.popSlot_underflow (hp : s.params.stackPolicy = .fault) (hsp : s.sp.toNat = 0) :
    s.popSlot = .raises .stackUnderflow := by
  simp only [State.popSlot, hp, hsp, if_true]

/-- Above the largest legal sp there is no slot to push to. -/
theorem State.pushSlot_of_spMax_lt (h : spMax s.params < s.sp.toNat) : s.pushSlot = .absent := by
  unfold spMax at h
  cases hp : s.params.stackPolicy with
  | fault =>
    simp only [hp] at h
    simp only [State.pushSlot, hp, if_neg h.ne', slotAt_ge (show ¬ s.sp.toNat < 16 by omega)]
  | wrap =>
    simp only [hp] at h
    simp only [State.pushSlot, hp, slotAt_ge (show ¬ s.sp.toNat < 16 by omega)]

/-- Under STACK_POLICY = fault there is no slot to pop from above 16. -/
theorem State.popSlot_of_16_lt (hp : s.params.stackPolicy = .fault) (h : 16 < s.sp.toNat) : s.popSlot = .absent := by
  simp only [State.popSlot, hp, if_neg (show s.sp.toNat ≠ 0 by omega),
    slotAt_ge (show ¬ s.sp.toNat - 1 < 16 by omega)]

theorem exec_ret_of_slot (h : s.popSlot = .slot k) : exec .ret s = .next (s.popPc k) := by
  simp only [exec, execRet, h]

theorem exec_call_of_slot (h : s.pushSlot = .slot k) (nnn : Addr) :
    exec (.call nnn) s = .next { s.pushPc k with pc := zextAddr nnn } := by
  simp only [exec, execCall, h]

/-- The pop of the slot of number `k` (R141). -/
theorem exec_ret_pops (h : s.popSlot = .slot k) :
    ∃ t, exec .ret s = .next t ∧ t.sp.toNat = k.val ∧ (∀ j : Nibble, j.val = k.val → t.pc = s.stack[j.val]) ∧
      t = { s with sp := t.sp, pc := t.pc } := by
  refine ⟨_, exec_ret_of_slot h, ?_, fun j hj => ?_, rfl⟩
  · rw [State.popPc_sp, BitVec.toNat_ofNat]
    omega
  · rw [State.popPc_pc, Fin.ext hj]

/-- Settles O34: row 2 of the map; the slot popped is the one below sp, modulo 16 under wrap. -/
theorem retPopsThePc : Obligations.RetPopsThePc := by
  refine ⟨selects_instrOfRow ⟨2, 0xF00F, 0x000E⟩ (by decide), fun s => ⟨fun hp h0 => ?underflow,
    fun hp h1 h16 => ?fault, fun hp _ => exec_ret_pops (State.popSlot_wrap hp)⟩⟩
  case underflow => simp only [exec, execRet, State.popSlot_underflow hp h0, State.raise_eq]
  case fault => exact exec_ret_pops (State.popSlot_fault hp (by omega) (by omega))

/-- A slot of the stack after a push. -/
theorem State.pushPc_getElem (s : State) (k j : Nibble) :
    (s.pushPc k).stack[j.val] = if j.val = k.val then s.pc else s.stack[j.val] := by
  simp only [State.pushPc, Vector.getElem_set, eq_comm]

/-- Settles O36: row 4 of the map; the slot pushed is the one at sp. -/
theorem callPushesThePc : Obligations.CallPushesThePc := by
  refine ⟨selects_instrOfRow ⟨4, 0xF000, 0x2000⟩ (by decide), fun nnn s => ⟨fun hp h16 => ?overflow, fun h15 => ?push⟩⟩
  case overflow => simp only [exec, execCall, State.pushSlot_overflow hp h16, State.raise_eq]
  case push =>
    have hslot := State.pushSlot_of_lt (Nat.lt_succ_of_le h15)
    exact ⟨_, exec_call_of_slot hslot nnn, zextAddr_toNat nnn, fun hp => State.spAfterPush_fault hp _,
      fun hp => State.spAfterPush_wrap hp _, s.pushPc_getElem _, rfl⟩

/-- Settles O37: both look for a slot that the stack does not have. -/
theorem stackPointerWithoutSlotStops : Obligations.StackPointerWithoutSlotStops := by
  refine fun nnn s => ⟨fun h => ?call, fun hp h => ?ret⟩
  case call => simp only [exec, execCall, State.pushSlot_of_spMax_lt h]
  case ret => simp only [exec, execRet, State.popSlot_of_16_lt hp h]

end Sys2Proof.Machine

/-! Register ALU with a flag (43_register_alu.md R166 to R171). A flag instruction is one write of a result and its
flag: the frame is one lemma about that write, and what is left of each rule is the result and the flag. -/

namespace Sys2Proof.Machine

/-- The result of a flag instruction is in V[x] unless x is 15, the other registers and all other state stay (R171). -/
theorem State.writeWithFlag_frame (s : State) (x : Nibble) (b f : Byte) :
    (∀ r, r ≠ x → r ≠ 15 → (s.writeWithFlag x b f).reg r = s.reg r) ∧
    s.writeWithFlag x b f = { s with V := (s.writeWithFlag x b f).V } :=
  ⟨fun r hx hf => by simp [flagReg, hf, hx], rfl⟩

theorem State.reg_writeWithFlag_result (s : State) {x : Nibble} (b f : Byte) (hx : x ≠ 15) :
    (s.writeWithFlag x b f).reg x = b := by
  simp [flagReg, hx]

theorem flagByte_decide (p : Prop) [Decidable p] : flagByte (decide p) = if p then 1 else 0 := by
  simp only [flagByte, decide_eq_true_eq]

/-- Subtraction of bytes is the mathematical difference modulo 256. -/
theorem byte_sub_toInt (a b : Byte) : ((a - b).toNat : Int) = ((a.toNat : Int) - b.toNat) % 256 := by
  have := b.isLt
  rw [BitVec.toNat_sub]
  omega

/-- Settles O45: row 16 of the map; the carry is that of the sum as a number. -/
theorem addSetsCarry : Obligations.AddSetsCarry := by
  refine ⟨selects_instrOfRow ⟨16, 0xF00F, 0x8004⟩ (by decide),
    fun x y s => ⟨_, rfl, fun hx => ?sum, ?carry, s.writeWithFlag_frame x _ _⟩⟩
  case sum => rw [s.reg_writeWithFlag_result _ _ hx, BitVec.toNat_add]
  case carry => rw [reg_flag_writeWithFlag, carryOut, flagByte_decide]

/-- Settles O46: rows 17 and 19 of the map, which differ in the minuend. -/
theorem subtractionsSetStrictFlag : Obligations.SubtractionsSetStrictFlag := by
  refine ⟨selects_instrOfRow ⟨17, 0xF00F, 0x8005⟩ (by decide), selects_instrOfRow ⟨19, 0xF00F, 0x8007⟩ (by decide),
    fun x y s => ⟨⟨_, rfl, fun hx => ?difference, ?flag, s.writeWithFlag_frame x _ _⟩,
      ⟨_, rfl, fun hx => ?differenceN, ?flagN, s.writeWithFlag_frame x _ _⟩⟩⟩
  case difference | differenceN => rw [s.reg_writeWithFlag_result _ _ hx, byte_sub_toInt]
  case flag | flagN => rw [reg_flag_writeWithFlag, exceeds, flagByte_decide]

/-- Settles O47: rows 18 and 20 of the map; a shift by one halves or doubles the number, and loses its last or its
first bit. -/
theorem shiftsReportTheLostBit : Obligations.ShiftsReportTheLostBit := by
  refine ⟨selects_instrOfRow ⟨18, 0xF00F, 0x8006⟩ (by decide), selects_instrOfRow ⟨20, 0xF00F, 0x800E⟩ (by decide),
    fun x s => ⟨⟨_, rfl, fun hx => ?right, ?lostRight, s.writeWithFlag_frame x _ _⟩,
      ⟨_, rfl, fun hx => ?left, ?lostLeft, s.writeWithFlag_frame x _ _⟩⟩⟩
  case right => rw [s.reg_writeWithFlag_result _ _ hx, BitVec.toNat_ushiftRight, Nat.shiftRight_one]
  case left => rw [s.reg_writeWithFlag_result _ _ hx, BitVec.toNat_shiftLeft, Nat.shiftLeft_eq]
  case lostRight => rw [reg_flag_writeWithFlag, shiftedOutRight, BitVec.toNat_ofNat]; omega
  case lostLeft =>
    have := (s.reg x).isLt
    rw [reg_flag_writeWithFlag, shiftedOutLeft, BitVec.toNat_ofNat]; omega

/-! The index register (44_memory_index.md R180, R181). -/

/-- Settles O48: rows 21 and 22 of the map; the sum is reduced as a 16-bit number. -/
theorem indexLoadAndAdd : Obligations.IndexLoadAndAdd := by
  refine ⟨selects_instrOfRow ⟨21, 0xF000, 0xA000⟩ (by decide), selects_instrOfRow ⟨22, 0xF0FF, 0xF01E⟩ (by decide),
    fun nnn x s => ⟨⟨_, rfl, zextAddr_toNat nnn, rfl⟩, ⟨_, rfl, ?sum, rfl⟩⟩⟩
  case sum => rw [BitVec.toNat_add, zextByte_toNat]

/-! The timers (47_timers.md R205 to R207). -/

/-- Settles O56: rows 31 to 33 of the map, each one copy. -/
theorem timerLoads : Obligations.TimerLoads :=
  ⟨selects_instrOfRow ⟨31, 0xF0FF, 0xF007⟩ (by decide), selects_instrOfRow ⟨32, 0xF0FF, 0xF015⟩ (by decide),
    selects_instrOfRow ⟨33, 0xF0FF, 0xF018⟩ (by decide),
    fun x s => ⟨⟨_, rfl, s.reg_setReg_self x s.DT, s.setReg_frame x s.DT⟩, rfl, _, rfl, rfl, State.soundOn_iff _⟩⟩

/-! The listed words (95_test_vectors.md 2.1). -/

/-- Settles O4: each listed word is decoded by evaluation. -/
theorem listedWordsDecode : Obligations.ListedWordsDecode := by
  unfold Obligations.ListedWordsDecode
  decide

end Sys2Proof.Machine

/-! pc and the fault latch after a STEP (40_cycle_and_dispatch.md section 5; 60_exceptions.md section 2). Each of the
two tables is checked against the handler once; a settled cycle takes both from its handler. -/

namespace Sys2Proof.Machine

variable {i : Instr} {s t b : State} {p w : Word} {rnd : Byte}

/-! The table of pc (40_cycle_and_dispatch.md section 5). `p` is pc before the cycle. -/

/-- The first row of the table: every instruction that does not write pc leaves the advance. -/
theorem pcAfter_of_not_writesPc (hi : writesPc i = false) (s : State) (p : Word) : pcAfter i s p = p + 2 := by
  cases i
  case jp | call | ret | jpV0 | seImm | sneImm | seReg | sneReg | skp | sknp | ldKey => cases hi
  all_goals rfl

/-- A skip adds its 2 to the advance. -/
theorem State.skipIf_pc_of_advanced (hp : s.pc = p + 2) (c : Bool) :
    (s.skipIf c).pc = if c = true then p + 4 else p + 2 := by
  rw [State.skipIf_pc, hp, BitVec.add_assoc]
  rfl

/-- SKP and SKNP skip on their key, or take their fault where their policy asks for it (46_input.md R198). -/
theorem exec_keySkip_next {x : Nibble} (hi : i = .skp x ∨ i = .sknp x) (h : exec i s = .next t) :
    (¬ (s.params.oobPolicy = .fault ∧ (s.reg x).toNat > 15) ∧ t = s.skipIf (skipTaken i s)) ∨
    ((s.params.oobPolicy = .fault ∧ (s.reg x).toNat > 15) ∧ t = { s with fault := some .keyIndexRange }) := by
  cases hk : s.keyIndex (s.reg x) with
  | error c =>
    obtain ⟨rfl, hp, hv⟩ := State.keyIndex_error hk
    rw [exec_keySkip_of_no_key hi hk] at h
    cases h; exact .inr ⟨⟨hp, Nat.lt_of_not_le hv⟩, rfl⟩
  | ok k =>
    have hres : ¬ (s.params.oobPolicy = .fault ∧ (s.reg x).toNat > 15) := by
      rintro ⟨hp, hv⟩
      rw [State.keyIndex_fault hp hv.not_ge] at hk
      cases hk
    obtain rfl := State.keyIndex_ok hk
    rcases hi with rfl | rfl
    · rw [exec_skp_of_key hk] at h; cases h; exact .inl ⟨hres, rfl⟩
    · rw [exec_sknp_of_key hk] at h; cases h; exact .inl ⟨hres, rfl⟩

/-- RET pops the slot below sp, modulo 16, or takes its fault (41_control_flow.md R141). -/
theorem execRet_next (h : execRet s = .next t) :
    (∃ k : Nibble, k.val = (s.sp.toNat + 15) % 16 ∧ s.popSlot = .slot k ∧ t = s.popPc k) ∨
    (s.params.stackPolicy = .fault ∧ s.sp.toNat = 0 ∧ t = { s with fault := some .stackUnderflow }) := by
  unfold execRet at h
  split at h
  case h_1 k hslot => cases h; exact .inl ⟨k, State.popSlot_slot hslot, hslot, rfl⟩
  case h_2 c hraises =>
    obtain ⟨rfl, hp, h0⟩ := State.popSlot_raises hraises
    cases h; exact .inr ⟨hp, h0, rfl⟩
  case h_3 => cases h

/-- LD Vx, K undoes the advance where no key is pressed (46_input.md R197). -/
theorem execLdKey_pc {x : Nibble} (hp : s.pc = p + 2) (h : execLdKey x s = .next t) :
    t.pc = if ∀ k, s.key k = false then p else p + 2 := by
  unfold execLdKey at h
  split at h
  case h_1 hnone =>
    cases h
    rw [if_pos (State.lowestPressed_none.mp hnone), State.rewindPc_pc, hp, BitVec.add_sub_cancel]
  case h_2 k hsome =>
    cases h
    rw [if_neg (by simp [← State.lowestPressed_none, hsome])]
    exact hp

/-- The target of JP V0, nnn as the table writes it (41_control_flow.md R144). -/
theorem zextAddr_add_zextByte (a : Addr) (v : Byte) :
    zextAddr a + zextByte v = BitVec.ofNat 16 (a.toNat + v.toNat) := by
  rw [← zextAddr_add_zextByte_toNat, BitVec.ofNat_toNat, BitVec.setWidth_eq]

/-- A handler that leaves the latch clear leaves pc as the table says. -/
theorem exec_pc (hp : s.pc = p + 2) (h : exec i s = .next t) (hf : t.fault = none) : t.pc = pcAfter i s p := by
  have hkeySkip (x : Nibble) (hi : i = .skp x ∨ i = .sknp x) : t.pc = if skipTaken i s then p + 4 else p + 2 := by
    rcases exec_keySkip_next hi h with ⟨-, rfl⟩ | ⟨-, rfl⟩
    · exact State.skipIf_pc_of_advanced hp _
    · cases hf
  by_cases hi : writesPc i = false
  · rw [(exec_writesOnlyListed h).pc hi, pcAfter_of_not_writesPc hi, hp]
  cases i
  case skp x => exact hkeySkip x (.inl rfl)
  case sknp x => exact hkeySkip x (.inr rfl)
  case seImm | sneImm | seReg | sneReg => cases h; exact State.skipIf_pc_of_advanced hp _
  case ldKey => exact execLdKey_pc hp h
  case jp => cases h; rfl
  case jpV0 nnn => cases h; exact zextAddr_add_zextByte nnn _
  case call =>
    obtain ⟨k, -, rfl⟩ | rfl := execCall_next h
    · rfl
    · cases hf
  case ret =>
    obtain ⟨k, hk, -, rfl⟩ | ⟨-, -, rfl⟩ := execRet_next h
    · simp only [State.popPc_pc, hk, pcAfter]
    · cases hf
  all_goals exact absurd rfl hi

/-- Settles O15: a cycle that commits has pc from its handler, and one that faults has pc from before. -/
theorem pcFollowsTheTable : Obligations.PcFollowsTheTable := by
  intro s b rnd w t hb hf hw h
  rw [hb.step_eq_settle hf hw] at h
  obtain ⟨-, hpc, -⟩ := hb.keeps
  rcases settle_next h with ⟨u, hu, huf, rfl⟩ | ⟨u, c, -, -, rfl⟩
  · rw [if_pos huf, exec_pc (p := s.pc) rfl hu huf]
    obtain ⟨rest, -, rfl⟩ | ⟨-, -, rfl⟩ := hb <;> rfl
  · rw [if_neg nofun]
    exact hpc

/-! The table of faults (60_exceptions.md R221). -/

/-- A block is out of reach where its last address is above 0xFFF under OOB_POLICY = fault. -/
theorem not_blockInReach_iff {n : Nat} :
    ¬ BlockInReach s n ↔ s.params.oobPolicy = .fault ∧ n ≠ 0 ∧ s.I.toNat + (n - 1) > 0xFFF := by
  have hpolicy : s.params.oobPolicy ≠ .wrap ↔ s.params.oobPolicy = .fault := by
    cases s.params.oobPolicy <;> simp
  rw [BlockInReach, not_or, not_or, ← ne_eq, hpolicy, Nat.not_le]

/-- A block operation whose effect leaves the latch faults where its block is out of reach. -/
theorem withBlock_fault {n : Nat} {f : List Nat → State} {q : Prop} [Decidable q] (h : s.withBlock n f = .next t)
    (hs : s.fault = none) (hf : ∀ as, (f as).fault = s.fault) (hq : q ↔ ¬ BlockInReach s n) :
    t.fault = if q then some .dataAddressRange else none := by
  by_cases hr : BlockInReach s n
  · obtain ⟨as, has⟩ := State.eaBlock_of_reach hr
    rw [State.withBlock_ok f has] at h
    cases h
    rw [if_neg (by simpa [hq] using hr), hf, hs]
  · rw [State.withBlock_not_reach f hr] at h
    cases h
    rw [if_pos (hq.mpr hr)]

/-- The table lists no fault for an instruction that may not raise. -/
theorem handlerFault_of_not_mayRaise (hi : mayRaise i = false) (s : State) : handlerFault i s = none := by
  cases i
  case drw | ldB | storeRegs | loadRegs | call | ret | skp | sknp => cases hi
  all_goals rfl

/-- CALL takes its fault on a full stack alone (41_control_flow.md R143). -/
theorem execCall_fault {nnn : Addr} (hs : s.fault = none) (h : execCall nnn s = .next t) :
    t.fault = if s.params.stackPolicy = .fault ∧ s.sp.toNat = 16 then some .stackOverflow else none := by
  unfold execCall at h
  split at h
  case h_1 k hslot =>
    have hk := State.pushSlot_slot hslot
    cases h
    rw [if_neg (by omega)]
    exact hs
  case h_2 c hraises =>
    obtain ⟨rfl, hp, h16⟩ := State.pushSlot_raises hraises
    cases h
    rw [if_pos ⟨hp, h16⟩]
  case h_3 => cases h

/-- RET takes its fault on an empty stack alone (41_control_flow.md R141). -/
theorem execRet_fault (hs : s.fault = none) (h : execRet s = .next t) :
    t.fault = if s.params.stackPolicy = .fault ∧ s.sp.toNat = 0 then some .stackUnderflow else none := by
  obtain ⟨k, -, hslot, rfl⟩ | ⟨hp, h0, rfl⟩ := execRet_next h
  · have hne : ¬ (s.params.stackPolicy = .fault ∧ s.sp.toNat = 0) := by
      rintro ⟨hp, h0⟩
      rw [State.popSlot_underflow hp h0] at hslot
      cases hslot
    rw [if_neg hne]
    exact hs
  · rw [if_pos ⟨hp, h0⟩]

/-- A handler takes the fault of its row of the table, and under the condition of that row alone. -/
theorem exec_fault (hs : s.fault = none) (h : exec i s = .next t) : t.fault = handlerFault i s := by
  have hkeySkip (x : Nibble) (hi : i = .skp x ∨ i = .sknp x) :
      t.fault = if s.params.oobPolicy = .fault ∧ (s.reg x).toNat > 15 then some .keyIndexRange else none := by
    rcases exec_keySkip_next hi h with ⟨hc, rfl⟩ | ⟨hc, rfl⟩
    · rw [if_neg hc]
      simpa using hs
    · rw [if_pos hc]
  by_cases hi : mayRaise i = false
  · rw [(exec_writesOnlyListed h).fault hi, hs, handlerFault_of_not_mayRaise hi]
  cases i
  case skp x => exact hkeySkip x (.inl rfl)
  case sknp x => exact hkeySkip x (.inr rfl)
  case call => exact execCall_fault hs h
  case ret => exact execRet_fault hs h
  case drw | ldB | storeRegs | loadRegs =>
    exact withBlock_fault h hs (fun _ => by simp) ((and_congr_right fun _ => by omega).trans not_blockInReach_iff.symm)
  all_goals exact absurd rfl hi

/-- A settled cycle has the latch of its handler. -/
theorem settle_fault {o : Host.Outcome State Fault Refusal} (h : settle b o = .next t) :
    ∃ u, o = .next u ∧ t.fault = u.fault := by
  rcases settle_next h with ⟨u, hu, -, rfl⟩ | ⟨u, c, hu, hc, rfl⟩
  · exact ⟨t, hu, rfl⟩
  · exact ⟨u, hu, hc.symm⟩

/-- A STEP takes the fault of its fetch, or else the fault of its handler (R225). -/
theorem TakesStep.fault_eq_stepFault (hb : TakesStep s b rnd) (hf : s.fault = none) (h : step s = .next t) :
    t.fault = stepFault s := by
  obtain ⟨hfault, -, hfetch⟩ := hb.keeps
  unfold stepFault
  split
  case isTrue hc =>
    obtain ⟨hp, hpc⟩ := hc
    rw [hb.step_eq_cycle, cycle_fetch_error (hfault.trans hf) (hfetch.trans (fetchWord_fault hp hpc))] at h
    cases h; rfl
  case isFalse hc =>
    cases hw : s.fetchWord with
    | error c =>
      obtain ⟨-, hp, hpc⟩ := State.fetchWord_error hw
      exact absurd ⟨hp, Nat.lt_of_not_le hpc⟩ hc
    | ok w =>
      rw [hb.step_eq_settle hf hw] at h
      obtain ⟨u, hu, huf⟩ := settle_fault h
      have hcommit : State.fault { b with rnd := rnd, opcode := w, pc := s.pc + 2 } = none := hfault.trans hf
      rw [huf, exec_fault hcommit hu]
      obtain ⟨rest, -, rfl⟩ | ⟨-, -, rfl⟩ := hb <;> rfl

/-- Settles O16: the fault of a STEP is that of its fetch or of its handler; the codes stand in `Cause.code`. -/
theorem stepFaultsExactlyAsListed : Obligations.StepFaultsExactlyAsListed :=
  ⟨fun _ _ _ _ => TakesStep.fault_eq_stepFault, rfl, rfl, rfl, rfl, rfl⟩

/-! Fault entry and the faulted core (R222 to R224; 10_state.md R32). -/

/-- Settles O17: a STEP that ends with the latch set has taken a fault, and not committed its handler's state. -/
theorem faultsArePrecise : Obligations.FaultsArePrecise := by
  intro s b rnd t c hb hf h hc
  obtain ⟨hfault, -, -⟩ := hb.keeps
  rw [hb.step_eq_cycle] at h
  rcases cycle_next h with ⟨hbf, -⟩ | ⟨-, c', -, rfl⟩ | ⟨w, -, -, -, hclear⟩
  · exact absurd (hfault.trans hf) hbf
  · cases hc; rfl
  · rw [hclear] at hc; cases hc

/-- No cause is enabled where both policies wrap (R221). -/
theorem causeEnabled_of_wrap {p : Params} (ho : p.oobPolicy = .wrap) (hst : p.stackPolicy = .wrap) (c : Cause) :
    causeEnabled p c = false := by
  cases c <;> simp [causeEnabled, ho, hst]

/-- With both policies wrap a STEP latches nothing. -/
theorem cycle_keeps_latch_clear (ho : s.params.oobPolicy = .wrap) (hst : s.params.stackPolicy = .wrap)
    (hf : s.fault = none) (h : cycle rnd s = .next t) : t.fault = none := by
  rcases cycle_next h with ⟨hne, -⟩ | ⟨-, c, hc, -⟩ | ⟨w, -, -, -, hclear⟩
  · exact absurd hf hne
  · rw [causeEnabled_of_wrap ho hst] at hc; cases hc
  · exact hclear

/-- Only a STEP can set the latch. -/
theorem command_keeps_latch_clear {c : Command} (ho : s.params.oobPolicy = .wrap)
    (hst : s.params.stackPolicy = .wrap) (hf : s.fault = none) (h : command c s = .next t) : t.fault = none := by
  cases c
  case step => exact cycle_keeps_latch_clear ho hst hf h
  case reset => cases h; rfl
  case tick | keySet | memLoad => cases h; rw [State.unlessFaulted_of_clear hf]; exact hf

/-- Settles O19: a step is a command, on a state with the same parameters and latch. -/
theorem wrapPoliciesNeverLatch : Obligations.WrapPoliciesNeverLatch := by
  intro s t ho hst hf h
  rcases step_eq s with ⟨-, he⟩ | ⟨c, rest, -, he⟩ <;> rw [he] at h
  · exact cycle_keeps_latch_clear (s := { s with draws := s.draws + 1 }) ho hst hf h
  · exact command_keeps_latch_clear (s := { s with schedule := rest }) ho hst hf h

/-! The end of a run (70_reset_and_hazards.md R264). -/

theorem State.ended_iff :
    s.ended = true ↔
      s.fault = none ∧ ∃ w nnn, s.fetchWord = .ok w ∧ decodeWord w = .jp nnn ∧ zextAddr nnn = s.pc := by
  constructor
  · intro h
    unfold State.ended at h
    split at h
    case h_1 w hf hw =>
      split at h
      case h_1 nnn hi => exact ⟨hf, w, nnn, hw, hi, eq_of_beq h⟩
      case h_2 => cases h
    case h_2 => cases h
  · rintro ⟨hf, w, nnn, hw, hi, hpc⟩
    simp [State.ended, hf, hw, hi, hpc]

/-- Settles O31: the jump to itself writes pc with the value it has. -/
theorem endedRunStaysPut : Obligations.EndedRunStaysPut := by
  intro s b rnd hb hend
  obtain ⟨hf, w, nnn, hw, hi, hpc⟩ := State.ended_iff.mp hend
  obtain ⟨hfault, hbpc, hfetch⟩ := hb.keeps
  have hbw : State.fetchWord { b with rnd := rnd, opcode := w } = .ok w := hfetch.trans hw
  refine ⟨w, hw, ?_, State.ended_iff.mpr ⟨hfault.trans hf, w, nnn, hbw, hi, hpc.trans hbpc.symm⟩, hbw⟩
  have hjump : exec (.jp nnn) { b with rnd := rnd, opcode := w, pc := s.pc + 2 } =
      .next { b with rnd := rnd, opcode := w } := by
    simp only [exec, execJp, hpc, hbpc]
  rw [hb.step_eq_settle hf hw, hi, hjump]
  exact settle_clear b (hfault.trans hf)

/-- Settles O18: no command but RESET has an effect, and no run ends with the latch set. -/
theorem faultedCoreObeysOnlyReset : Obligations.FaultedCoreObeysOnlyReset := by
  refine fun s hf => ⟨fun b rnd hb => ?step, fun b c hb => hb.step_of_faulted hf,
    fun b hb => ⟨_, hb.step_eq_command, rfl⟩, ?noEnd⟩
  case step => rw [hb.step_eq_cycle, cycle_faulted (hb.keeps.1 ▸ hf)]
  case noEnd => exact Bool.eq_false_iff.mpr fun hend => hf (State.ended_iff.mp hend).1

end Sys2Proof.Machine

/-! Draw (48_draw.md R210 to R213). What DRW does in reach of its sprite is said once, by `DrawsSprite`; each statement
about sprites is a consequence. -/

namespace Sys2Proof.Machine

variable {s t u : State} {x y n : Nibble} {ox oy m : Nat} {py : Fin 32} {px : Fin 64}

/-- A covered pixel of the sprite is on: the collision of R212. -/
def SpriteCollides (s : State) (ox oy m : Nat) : Prop :=
  ∃ py px, SpriteCovers s ox oy m py px ∧ s.pixel py px = true

/-- `t` is `s` with the `m`-row sprite at I drawn with its origin at (ox, oy), and its collision in V[15]. -/
structure DrawsSprite (s : State) (ox oy m : Nat) (t : State) : Prop where
  pixel : ∀ py px, t.pixel py px = true ↔ (s.pixel py px = true ↔ ¬ SpriteCovers s ox oy m py px)
  flag : ∃ c, t.reg 15 = flagByte c ∧ (c = true ↔ SpriteCollides s ox oy m)
  kept : ∀ r, r ≠ 15 → t.reg r = s.reg r
  frame : t = { s with V := t.V, video := t.video }

/-- DRW in reach draws its sprite at the origin that the registers give before the flag is written (R210, R212). -/
theorem exec_drw_drawsSprite (hr : BlockInReach s n.val) (h : exec (.drw x y n) s = .next t) :
    DrawsSprite s ((s.reg x).toNat % 64) ((s.reg y).toNat % 32) n.val t := by
  obtain ⟨as, has⟩ := State.eaBlock_of_reach hr
  have hlen : 0 + (as.map s.readByte).length ≤ 32 := by
    rw [List.length_map, (State.eaBlock_ok has).1]
    omega
  have hdrw : exec (.drw x y n) s = .next _ := State.withBlock_ok _ has
  cases hdrw.symm.trans h
  refine ⟨fun py px => ?pixel, ⟨_, State.reg_setReg_self _ flagReg _, ?flag⟩, fun r hr => ?kept, rfl⟩
  case pixel =>
    rw [← rowsCover_iff_spriteCovers has]
    exact drawRows_pixel _ _ 0 _ hlen _ py px
  case flag =>
    rw [drawRows_collision _ _ 0 _ hlen]
    simp only [rowsCover_iff_spriteCovers has, Bool.false_eq_true, false_or]
    rfl
  case kept => exact (State.setReg_frame _ flagReg _).1 r hr

namespace DrawsSprite

theorem pixel_of_covers (h : DrawsSprite s ox oy m t) (hc : SpriteCovers s ox oy m py px) :
    t.pixel py px = !s.pixel py px := by
  rw [Bool.eq_iff_iff, h.pixel]
  simp [hc]

theorem pixel_of_not_covers (h : DrawsSprite s ox oy m t) (hc : ¬ SpriteCovers s ox oy m py px) :
    t.pixel py px = s.pixel py px := by
  rw [Bool.eq_iff_iff, h.pixel]
  simp [hc]

theorem flag_eq_one_iff (h : DrawsSprite s ox oy m t) : t.reg 15 = 1 ↔ SpriteCollides s ox oy m := by
  obtain ⟨c, hc, hiff⟩ := h.flag
  rw [hc, ← hiff]
  cases c <;> decide

theorem flag_eq_zero_iff (h : DrawsSprite s ox oy m t) : t.reg 15 = 0 ↔ ¬ SpriteCollides s ox oy m := by
  obtain ⟨c, hc, hiff⟩ := h.flag
  rw [hc, ← hiff]
  cases c <;> decide

/-- A sprite that covers no pixel leaves the screen and clears the flag (R213). -/
theorem of_covers_nothing (h : DrawsSprite s ox oy m t) (hc : ∀ py px, ¬ SpriteCovers s ox oy m py px) :
    t.video = s.video ∧ t.reg 15 = 0 ∧ t = { s with V := t.V } := by
  have hvideo : t.video = s.video := Video.ext_get _ _ fun py px => h.pixel_of_not_covers (hc py px)
  refine ⟨hvideo, h.flag_eq_zero_iff.mpr fun ⟨py, px, hcov, _⟩ => hc py px hcov, ?_⟩
  have hframe := h.frame
  rwa [hvideo] at hframe

/-- Drawing leaves the sprite as it is: its rows are in memory, and I is not written. -/
theorem spriteCovers_iff (h : DrawsSprite s ox oy m t) (ox' oy' m' : Nat) (py : Fin 32) (px : Fin 64) :
    SpriteCovers t ox' oy' m' py px ↔ SpriteCovers s ox' oy' m' py px := by
  rw [h.frame]
  rfl

theorem blockInReach (h : DrawsSprite s ox oy m t) {k : Nat} (hr : BlockInReach s k) : BlockInReach t k := by
  rw [h.frame]
  exact hr

end DrawsSprite

/-- Settles O57: row 34 of the map; out of reach the block does not resolve. -/
theorem drawFlipsCoveredPixels : Obligations.DrawFlipsCoveredPixels := by
  refine ⟨selects_instrOfRow ⟨34, 0xF000, 0xD000⟩ (by decide),
    fun x y n s => ⟨fun hr => ?_, State.withBlock_not_reach _⟩⟩
  obtain ⟨t, ht⟩ : ∃ t, exec (.drw x y n) s = .next t := withBlock_goesOn ..
  have hdraw := exec_drw_drawsSprite hr ht
  exact ⟨t, ht, fun _ _ => hdraw.pixel_of_covers, fun _ _ => hdraw.pixel_of_not_covers, hdraw.flag_eq_one_iff.mpr,
    hdraw.flag_eq_zero_iff.mpr, hdraw.kept, hdraw.frame⟩

/-- A sprite in reach whose bytes are all zero draws nothing (R213). -/
theorem exec_drw_of_zero_bytes (x y : Nibble) (hr : BlockInReach s n.val)
    (hz : ∀ r a, r < n.val → s.ea .data (s.I.toNat + r) = .ok a → s.readByte a = 0) :
    ∃ t, exec (.drw x y n) s = .next t ∧ t.video = s.video ∧ t.reg 15 = 0 ∧ t = { s with V := t.V } := by
  obtain ⟨t, ht⟩ : ∃ t, exec (.drw x y n) s = .next t := withBlock_goesOn ..
  refine ⟨t, ht, (exec_drw_drawsSprite hr ht).of_covers_nothing ?_⟩
  rintro py px ⟨r, c, a, hrn, -, -, -, ha, hbit⟩
  simp [hz r a hrn ha] at hbit

/-- Settles O58: a sprite of no rows is in reach and has no byte, whatever I is. -/
theorem degenerateSpritesDrawNothing : Obligations.DegenerateSpritesDrawNothing := fun x y _ _ =>
  ⟨exec_drw_of_zero_bytes x y (.inr (.inl rfl)) fun r _ hr => absurd hr (Nat.not_lt_zero r), exec_drw_of_zero_bytes x y⟩

/-! Drawing twice (R212). -/

theorem byte_ne_zero_iff (v : Byte) : v ≠ 0 ↔ ∃ c < 8, v.getLsbD (7 - c) = true := by
  constructor
  · intro hv
    by_contra hno
    refine hv (BitVec.eq_of_getLsbD_eq fun j hj => ?_)
    have hbit : ¬ v.getLsbD (7 - (7 - j)) = true := fun hb => hno ⟨7 - j, by omega, hb⟩
    simpa [show 7 - (7 - j) = j by omega] using hbit
  · rintro ⟨c, -, hbit⟩ rfl
    simp at hbit

/-- A sprite covers a pixel iff one of its bytes is not zero. -/
theorem exists_spriteCovers_iff (s : State) (ox oy m : Nat) :
    (∃ py px, SpriteCovers s ox oy m py px) ↔
      ∃ r a, r < m ∧ s.ea .data (s.I.toNat + r) = .ok a ∧ s.readByte a ≠ 0 := by
  constructor
  · rintro ⟨py, px, r, c, a, hr, hc, -, -, ha, hbit⟩
    exact ⟨r, a, hr, ha, (byte_ne_zero_iff _).mpr ⟨c, hc, hbit⟩⟩
  · rintro ⟨r, a, hr, ha, hne⟩
    obtain ⟨c, hc, hbit⟩ := (byte_ne_zero_iff _).mp hne
    exact ⟨Fin.ofNat 32 (oy + r), Fin.ofNat 64 (ox + c), r, c, a, hr, hc, rfl, rfl, ha, hbit⟩

/-- On a screen that is off the drawn sprite is what is on. -/
theorem DrawsSprite.pixel_iff_covers (h : DrawsSprite s ox oy m t) (hoff : ∀ py px, s.pixel py px = false)
    (py : Fin 32) (px : Fin 64) : t.pixel py px = true ↔ SpriteCovers s ox oy m py px := by
  simp [h.pixel, hoff]

/-- The second draw at the same origin turns each pixel of the first off again, and collides where there is one. -/
theorem DrawsSprite.twice (ht : DrawsSprite s ox oy m t) (hu : DrawsSprite t ox oy m u)
    (hoff : ∀ py px, s.pixel py px = false) :
    t.reg 15 = 0 ∧ u.video = s.video ∧ (u.reg 15 = 1 ↔ ∃ py px, SpriteCovers s ox oy m py px) := by
  have hon := ht.pixel_iff_covers hoff
  refine ⟨ht.flag_eq_zero_iff.mpr ?first, Video.ext_get _ _ fun py px => ?erased, ?second⟩
  case first =>
    rintro ⟨py, px, -, hpixel⟩
    simp [hoff] at hpixel
  case erased =>
    have hpixel : u.pixel py px = false := by
      rw [← Bool.not_eq_true, hu.pixel, hon, ht.spriteCovers_iff]
      exact iff_not_self
    exact hpixel.trans (hoff py px).symm
  case second => simp only [hu.flag_eq_one_iff, SpriteCollides, ht.spriteCovers_iff, hon, and_self]

/-- Settles O59: both draws are of the same sprite at the same origin. -/
theorem drawingTwiceErasesTheSprite : Obligations.DrawingTwiceErasesTheSprite := by
  intro x y n s t u hr hoff ht hx hy hu
  have hfirst := exec_drw_drawsSprite hr ht
  have hsecond := exec_drw_drawsSprite (hfirst.blockInReach hr) hu
  rw [hx, hy] at hsecond
  rw [← exists_spriteCovers_iff]
  exact hfirst.twice hsecond hoff

end Sys2Proof.Machine
